-- ==== Sys2Proof/Word.lean ====
section
/-! DEFINITION. The two widths of the core: the 15-bit Word and the 16-bit cell (00_scope.md R3, R4). -/

namespace Sys2Proof

/-- A Word: an unsigned integer in [0, 32768), what a register holds (00_scope.md R3 WORD_BITS, R4). -/
abbrev Word := BitVec 15

/-- A raw word: an unsigned integer in [0, 65536), what a memory cell, a stack element and the program
counter hold (00_scope.md R3 CELL_BITS, STACK_ELEM_BITS, PC_BITS; 10_state.md R21). -/
abbrev Cell := BitVec 16

/-- A register index, 0 to 7; the pseudocode's `x[i]` (10_state.md R11). -/
abbrev RegIndex := Fin 8

end Sys2Proof
end

