-- ==== Sys2Proof/Machine/Flags.lean ====
section
/-! DEFINITION. The core has no flags, condition codes or predicate registers (10_state.md R17). In their place a
comparison writes 0 or 1 into a register and a conditional jump tests an operand against zero. -/

namespace Sys2Proof.Machine

/-- The value a comparison writes: 1 or 0 (42_compare.md R110, R111). -/
def truthValue (b : Bool) : Nat := if b then 1 else 0

/-- The condition of `jt`: "non-zero" is any value 1 to 32767 (43_control_transfer.md R122). -/
def isNonZero (v : Word) : Bool := v != 0

end Sys2Proof.Machine
end

