-- ==== Sys2Proof/Syntax.lean ====
section
/-! DEFINITION. The instructions: one constructor per row of the opcode map (30_encoding.md R65), its operand
words sorted into the three classes of 30_encoding.md R63. -/

namespace Sys2Proof

/-- An operand word, in exactly one of the three classes of 30_encoding.md R63. The class says how the word is
written; whether it is legal is settled only when the instruction resolves it (R67). -/
inductive Operand where
  /-- A literal, 0 to 32767: the 15-bit value itself. -/
  | lit (v : Word)
  /-- A register reference, the word 32768 + i. -/
  | reg (i : RegIndex)
  /-- An invalid operand word, 32776 to 65535, kept whole because a fault reports it (60_exceptions.md R223). -/
  | invalid (c : Cell)
  deriving DecidableEq, Repr, Inhabited

/-- The 22 instructions (00_scope.md R2), operands named `a`, `b`, `c` in the order of the words
(30_encoding.md R61). The table's `in` is `inp` here, since `in` is a word of Lean's own. -/
inductive Instr where
  | halt
  | set (a b : Operand)
  | push (a : Operand)
  | pop (a : Operand)
  | eq (a b c : Operand)
  | gt (a b c : Operand)
  | jmp (a : Operand)
  | jt (a b : Operand)
  | jf (a b : Operand)
  | add (a b c : Operand)
  | mult (a b c : Operand)
  | mod (a b c : Operand)
  | and (a b c : Operand)
  | or (a b c : Operand)
  | not (a b : Operand)
  | rmem (a b : Operand)
  | wmem (a b : Operand)
  | call (a : Operand)
  | ret
  | out (a : Operand)
  | inp (a : Operand)
  | noop
  deriving DecidableEq, Repr, Inhabited

/-- The operands of an instruction, in the order of its words (30_encoding.md R60, R61). -/
def Instr.operands : Instr → List Operand
  | .halt => []
  | .set a b => [a, b]
  | .push a => [a]
  | .pop a => [a]
  | .eq a b c => [a, b, c]
  | .gt a b c => [a, b, c]
  | .jmp a => [a]
  | .jt a b => [a, b]
  | .jf a b => [a, b]
  | .add a b c => [a, b, c]
  | .mult a b c => [a, b, c]
  | .mod a b c => [a, b, c]
  | .and a b c => [a, b, c]
  | .or a b c => [a, b, c]
  | .not a b => [a, b]
  | .rmem a b => [a, b]
  | .wmem a b => [a, b]
  | .call a => [a]
  | .ret => []
  | .out a => [a]
  | .inp a => [a]
  | .noop => []

/-- "number of operand words an opcode consumes", without the opcode word (00_scope.md section 6). -/
def Instr.arity (i : Instr) : Nat := i.operands.length

end Sys2Proof
end

