-- ==== Sys2Proof/WellFormed.lean ====
section
/-! DEFINITION. Which terms of `Instr` stand for instruction words (30_encoding.md R63, R67). -/

namespace Sys2Proof

/-- An operand stands for exactly one operand word: the class `invalid` holds only words of 32776 or more
(30_encoding.md R63); a smaller word is a literal or a register reference and is written as that. -/
def Operand.wellFormed : Operand → Bool
  | .lit _ => true
  | .reg _ => true
  | .invalid c => decide (32776 ≤ c.toNat)

/-- An instruction is well formed when its operands are. No role is checked: a literal in a destination position
is an ordinary encoding, which faults when it is resolved and not before (30_encoding.md R67). -/
def Instr.wellFormed (i : Instr) : Bool := i.operands.all Operand.wellFormed

end Sys2Proof
end

