-- ==== Sys2Proof/Decode.lean ====
section
/-! DEFINITION. From words to instructions and back: the Opcode Registry (30_encoding.md R65), the operand classes
(R63), the decoder, the encoder, and the table's numbering of bits. -/

namespace Sys2Proof

/-- REG_BASE: the operand word that names register 0 (00_scope.md R3). -/
def regBase : Nat := 32768

/-- REG_LIMIT: the first operand word that is invalid (00_scope.md R3). -/
def regLimit : Nat := 32776

/-- The class of an operand word (30_encoding.md R63). -/
def Operand.ofCell (c : Cell) : Operand :=
  if c.toNat < regBase then .lit (c.setWidth 15)
  else if h : c.toNat < regLimit then .reg ⟨c.toNat - regBase, by simp only [regLimit, regBase] at h ⊢; omega⟩
  else .invalid c

/-- The operand word an operand stands for (30_encoding.md R63). -/
def Operand.toCell : Operand → Cell
  | .lit v => v.setWidth 16
  | .reg i => BitVec.ofNat 16 (regBase + i.val)
  | .invalid c => c

/-- The opcode of an instruction: the first column of the opcode map (30_encoding.md R65). -/
def Instr.opcode : Instr → Nat
  | .halt => 0
  | .set .. => 1
  | .push .. => 2
  | .pop .. => 3
  | .eq .. => 4
  | .gt .. => 5
  | .jmp .. => 6
  | .jt .. => 7
  | .jf .. => 8
  | .add .. => 9
  | .mult .. => 10
  | .mod .. => 11
  | .and .. => 12
  | .or .. => 13
  | .not .. => 14
  | .rmem .. => 15
  | .wmem .. => 16
  | .call .. => 17
  | .ret => 18
  | .out .. => 19
  | .inp .. => 20
  | .noop => 21

/-- The instruction of an opcode with the operands `a`, `b`, `c`, of which it takes the first as many as its
arity; none where the number is no opcode (30_encoding.md R65, R66). -/
def Instr.ofOpcode (op : Nat) (a b c : Operand) : Option Instr :=
  match op with
  | 0 => some .halt
  | 1 => some (.set a b)
  | 2 => some (.push a)
  | 3 => some (.pop a)
  | 4 => some (.eq a b c)
  | 5 => some (.gt a b c)
  | 6 => some (.jmp a)
  | 7 => some (.jt a b)
  | 8 => some (.jf a b)
  | 9 => some (.add a b c)
  | 10 => some (.mult a b c)
  | 11 => some (.mod a b c)
  | 12 => some (.and a b c)
  | 13 => some (.or a b c)
  | 14 => some (.not a b)
  | 15 => some (.rmem a b)
  | 16 => some (.wmem a b)
  | 17 => some (.call a)
  | 18 => some .ret
  | 19 => some (.out a)
  | 20 => some (.inp a)
  | 21 => some .noop
  | _ => none

/-- Why words are no instruction. -/
inductive DecodeError where
  /-- The opcode word is not 0 to 21 (30_encoding.md R66). -/
  | unknownOpcode (w0 : Cell)
  /-- Fewer words follow the opcode word than its arity asks for (40_execution_loop.md R83). -/
  | truncated (w0 : Cell)
  /-- There is no word at all. -/
  | noWord
  deriving DecidableEq, Repr

/-- The decoder: the opcode is the whole first word (30_encoding.md R62), the arity follows from it alone (R69),
and the operand words follow it in order (R60, R61). Answers the instruction and the words after it. -/
def decode : List Cell → Except DecodeError (Instr × List Cell)
  | [] => .error .noWord
  | w0 :: rest =>
    let operand (k : Nat) : Operand := .ofCell (rest.getD k 0)
    match Instr.ofOpcode w0.toNat (operand 0) (operand 1) (operand 2) with
    | none => .error (.unknownOpcode w0)
    | some i => if rest.length < i.arity then .error (.truncated w0) else .ok (i, rest.drop i.arity)

/-- The encoder: the opcode word, then one word for each operand (30_encoding.md R60). -/
def encode (i : Instr) : List Cell := BitVec.ofNat 16 i.opcode :: i.operands.map Operand.toCell

/-- MAX_ARITY + 1: the most words an instruction has (00_scope.md R3). -/
def maxWords : Nat := 4

/-- The words of an instruction whose bits the opcode table numbers from the least significant bit of its first
word: word k is bits 16k + 15 to 16k; every bit from `nbits` up is 0. -/
def tableWords (nbits w : Nat) : List Cell :=
  (List.range maxWords).map fun k => BitVec.ofNat 16 (w % 2 ^ nbits / 2 ^ (16 * k))

/-- The instruction the decoder reads from bits numbered as the opcode table numbers them. -/
def decodeTableWord (nbits w : Nat) : Option Instr :=
  match decode (tableWords nbits w) with
  | .ok (i, _) => some i
  | .error _ => none

end Sys2Proof
end

