-- ==== Sys2Proof/Config.lean ====
section
/-! DEFINITION. The parameters of a run (00_scope.md R3, 92_eei_decisions.md section 2) and the free values the
spec leaves open (40_execution_loop.md R92). -/

namespace Sys2Proof

/-- NEWLINE: the character code appended after each input line (00_scope.md R3). -/
def Config.newline : Nat := 10

/-- ESCAPE_CHAR: the code of `%` (00_scope.md R3, 46_io.md R175). -/
def Config.escapeChar : Nat := 37

/-- The register the escape hook overwrites, "the last register" (46_io.md R175). -/
def Config.escapeRegister : RegIndex := 7

/-- The parameters a run takes as arguments (70_reset_and_hazards.md R263). A step reads them and never changes
them (10_state.md R29). Log entries 4 and 5. -/
structure Params where
  /-- MEM_SIZE - 1, the last cell's address; the type allows exactly the sizes 1 to 32768 of
  92_eei_decisions.md D1. The source's size is 32768 (10_state.md R20). -/
  lastCell : Fin 32768
  /-- DEBUG_ENABLE (OPEN): whether the instrumentation layer runs (47_disassembly_cache.md R190). -/
  debugEnable : Bool
  /-- SMC_CHECK_ENABLE (OPEN), read only when DEBUG_ENABLE is true (47_disassembly_cache.md R194). -/
  smcCheckEnable : Bool
  /-- ESCAPE_ENABLE, false by default (46_io.md R175). -/
  escapeEnable : Bool
  /-- ESCAPE_VALUE (OPEN), a natural number that the source never gives (46_io.md R175). -/
  escapeValue : Nat
  /-- STEP_MODE_RESET (OPEN): `step_mode` at the start of a run (10_state.md R31). -/
  stepModeReset : Bool
  deriving DecidableEq, Repr

/-- MEM_SIZE: the number of memory cells, 1 to 32768 (00_scope.md R3, 92_eei_decisions.md D1). -/
def Params.memSize (p : Params) : Nat := p.lastCell.val + 1

/-- The parameters of `State.reset`: the source's MEM_SIZE, ESCAPE_ENABLE at its default; the OPEN ones at values
of the model's own (DESIGN CHOICE, unsafe to rest on; log entry 4). -/
def Params.initial : Params where
  lastCell := 32767
  debugEnable := false
  smcCheckEnable := false
  escapeEnable := false
  escapeValue := 0
  stepModeReset := false

/-- What a FAULTED core holds beside the fault record, the output stream and pc: "registers, stack, memory, input
buffer and instrumentation state" (40_execution_loop.md R92). -/
structure Contents where
  regs : Vector Word 8
  stack : List Cell
  mem : List (Nat × Cell)
  inbuf : List Nat
  dcache : List (Nat × Instr)
  jdest : List Nat
  watch : Vector Bool 8
  stepMode : Bool
  stepSkip : Nat
  trace : Bool
  deriving DecidableEq, Repr, Inhabited

/-- FREE VALUE: the contents of a core after a fault, which the spec leaves unspecified and a claim must not read
(40_execution_loop.md R92, 93_implementation_defined.md U6). No body: nothing is known of the result. It may
depend on a seed and on the contents before the fault. Log entry 2. -/
opaque Config.afterFault (seed : Nat) (before : Contents) : Contents

end Sys2Proof
end

