-- ==== Sys2Proof/Machine/State.lean ====
section
/-! DEFINITION. The state of the core (10_state.md R10): every element of its inventory, the parameters and inputs of
the run, the ways a step stops, and the state at reset (10_state.md R31). -/

namespace Sys2Proof.Machine

/-- Memory (10_state.md R20): the cells that do not hold 0, as (address, cell) pairs, addresses strictly rising. An
unlisted address holds 0 (20_memory.md R46). -/
abbrev Memory := List (Nat × Cell)

/-- A fault with the info its rule records (60_exceptions.md R220 to R228). -/
inductive FaultInfo where
  /-- The raw words from the unknown one on, at most five, cut at the end of memory (R221). -/
  | unknownOpcode (words : List Cell)
  /-- The opcode word (R222). -/
  | truncatedInstruction (w0 : Cell)
  /-- The operand word (R223). -/
  | invalidAddressingMode (v : Cell)
  /-- The operand word (R224). -/
  | invalidWriteTarget (v : Cell)
  /-- No info (R225). -/
  | stackUnderflow
  /-- The address, the cached text and the new text (R226). -/
  | selfModifyingCodeDetected (addr : Nat) (cached new : String)
  /-- No info (R227). -/
  | divideByZero
  /-- The data address (R228). -/
  | memoryAddressOutOfRange (addr : Nat)
  deriving DecidableEq, Repr

/-- The fault record (10_state.md R23): the fault and the address of the instruction that faulted. The code is
`FaultInfo.code` of the fault. -/
structure FaultRecord where
  fault : FaultInfo
  pc : Cell
  deriving DecidableEq, Repr

/-- The halt reasons (10_state.md R22). -/
inductive HaltReason where
  /-- A `halt` instruction executed. -/
  | explicit
  /-- pc ran off the end of memory (10_state.md R16). -/
  | offEnd
  deriving DecidableEq, Repr

/-- The run state (10_state.md R22). -/
inductive RunState where
  | running
  | halted (reason : HaltReason)
  | faulted (record : FaultRecord)
  deriving DecidableEq, Repr

/-- A debugger command (60_exceptions.md R240 to R247), after the surrounding software has parsed its text; registers
are named by index (92_eei_decisions.md D21). Log entry 21. -/
inductive Command where
  | help
  | r
  | rs (reg value : Nat)
  | d
  | n (count : Nat)
  | w (regs : List Nat)
  | dis
  /-- An unrecognised name or a wrong argument count (R247). -/
  | malformed
  deriving DecidableEq, Repr

/-- Where inside an iteration the core waits for the host (60_exceptions.md R236): the model's own field, log entry 8.
The run state is RUNNING in all three (10_state.md R22). -/
inductive Hold where
  /-- It does not wait. -/
  | none
  /-- At the operator point, for a command `n` (60_exceptions.md R239). -/
  | operator
  /-- In the handler of `in`, for a line (46_io.md R174). -/
  | input
  deriving DecidableEq, Repr

/-- The complete state (10_state.md R10), the parameters of the run, and the host's inputs. -/
structure State where
  /-- The parameters of the run; no step changes them (10_state.md R29, 70_reset_and_hazards.md R263). -/
  params : Params
  /-- `x[0]` to `x[7]` (10_state.md R11). -/
  regs : Vector Word 8
  /-- The program counter (10_state.md R14). -/
  pc : Cell
  /-- The stack, its top first (10_state.md R18, R19; log entry 12). -/
  stack : List Cell
  /-- The memory (10_state.md R20, R21). -/
  mem : Memory
  /-- The run state and, when FAULTED, the fault record (10_state.md R22, R23). -/
  run : RunState
  /-- The input buffer, its front first (10_state.md R24). -/
  inbuf : List Nat
  /-- The output stream, in the order emitted (10_state.md R25). -/
  outs : List Word
  /-- The disassembly cache: the filled slots by rising address (10_state.md R26; 47_disassembly_cache.md R196 allows
  the instruction in place of its text; log entry 13). -/
  dcache : List (Nat × Instr)
  /-- The jump-destination set, rising (10_state.md R27). -/
  jdest : List Nat
  /-- The watch set: index i is watched where the mark is true (10_state.md R28). -/
  watch : Vector Bool 8
  /-- `step_mode` (10_state.md R28). -/
  stepMode : Bool
  /-- `step_skip` (10_state.md R28). -/
  stepSkip : Nat
  /-- `trace` (10_state.md R28). -/
  trace : Bool
  /-- The lines the host will still supply, oldest first (46_io.md R174; log entry 7). -/
  hostLines : List (List Nat)
  /-- The commands the operator will still give, oldest first (70_reset_and_hazards.md R263; log entry 7). -/
  commands : List Command
  /-- Where the core waits for the host (log entry 8). -/
  hold : Hold
  /-- The seed of the next free value (log entry 2). -/
  freeSeed : Nat
  deriving DecidableEq, Repr

/-- Why `step` has no next state. -/
inductive Fault where
  /-- Raised by `step` on a core that is already FAULTED, with the record it holds: "The first fault of a run is its
  last event" (60_exceptions.md R229), so it has no further step. Safe: the machine stops where the spec's does. -/
  | faulted (record : FaultRecord)
  deriving DecidableEq, Repr

/-- Why there is no meaning, or no run. -/
inductive Refusal where
  /-- Raised by an arm of `exec` for an instruction that has no meaning yet; no arm does. Safe. -/
  | notModelled (mnemonic : String)
  /-- Raised by `launch` for an image of an odd number of bytes (70_reset_and_hazards.md R261, U1). Safe. -/
  | oddLengthImage
  /-- Raised by `launch` for an image of more than MEM_SIZE words (92_eei_decisions.md D4, U8). Safe. -/
  | imageTooLong
  /-- Raised by `launch` for a patch whose address is not below MEM_SIZE (70_reset_and_hazards.md R262). Safe. -/
  | patchOutOfRange
  deriving DecidableEq, Repr

/-- The state at the start of a run (10_state.md R31) with no image loaded and the parameters of `Params.initial`.
An image comes in by `launch` (log entry 10). -/
def State.reset : State where
  params := Params.initial
  regs := Vector.replicate 8 0
  pc := 0
  stack := []
  mem := []
  run := .running
  inbuf := []
  outs := []
  dcache := []
  jdest := []
  watch := Vector.replicate 8 false
  stepMode := Params.initial.stepModeReset
  stepSkip := 0
  trace := false
  hostLines := []
  commands := []
  hold := .none
  freeSeed := 0

end Sys2Proof.Machine
end

