-- ==== Sys2Proof/Machine/Ops.lean ====
section
/-! DEFINITION. The named operations: slots by address, memory, registers, the stack, the three dispatch outcomes
(40_execution_loop.md R86), and raising a fault (60_exceptions.md R229). -/

namespace Sys2Proof.Machine

/-- What a handler or a step answers. -/
abbrev Result := Host.Outcome State Fault Refusal

/-! ### Data by address, in one canonical form -/

/-- The slot of address `a` in a list of filled slots. -/
def slotAt {α : Type} : List (Nat × α) → Nat → Option α
  | [], _ => none
  | (k, v) :: rest, a => if k = a then some v else slotAt rest a

/-- Fill the slot of `a` with `v`, the addresses staying in rising order. -/
def fillSlot {α : Type} : List (Nat × α) → Nat → α → List (Nat × α)
  | [], a, v => [(a, v)]
  | (k, w) :: rest, a, v =>
    if a < k then (a, v) :: (k, w) :: rest
    else if a = k then (a, v) :: rest
    else (k, w) :: fillSlot rest a v

/-- Empty the slot of `a`. -/
def clearSlot {α : Type} (m : List (Nat × α)) (a : Nat) : List (Nat × α) := m.filter fun c => c.1 ≠ a

/-- Put `a` into a set of addresses kept in rising order. -/
def insertAddr : List Nat → Nat → List Nat
  | [], a => [a]
  | k :: rest, a => if a < k then a :: k :: rest else if a = k then k :: rest else k :: insertAddr rest a

/-- Addresses strictly rising: the canonical form of a list of slots. -/
abbrev Rising {α : Type} (m : List (Nat × α)) : Prop := m.Pairwise fun c d => c.1 < d.1

/-- What an unlisted cell holds (20_memory.md R46). -/
abbrev Memory.unlisted : Cell := 0

/-- The canonical form of memory: addresses strictly rising, no listed cell holding what an unlisted one does, so that
equal memories are equal lists. -/
abbrev Memory.wf (m : Memory) : Prop := Rising m ∧ ∀ c ∈ m, c.2 ≠ Memory.unlisted

/-! ### Memory (20_memory.md R41) -/

/-- The raw word of one cell. -/
def Memory.read (m : Memory) (a : Nat) : Cell := (slotAt m a).getD Memory.unlisted

/-- Make one cell equal to `v` and change nothing else; a cell that becomes as an unlisted one is no longer listed. -/
def Memory.write (m : Memory) (a : Nat) (v : Cell) : Memory :=
  if v = Memory.unlisted then clearSlot m a else fillSlot m a v

/-- `MemRead(addr, 1)` (20_memory.md R41). -/
def State.readCell (s : State) (a : Nat) : Cell := s.mem.read a

/-- `MemWrite(addr, 1, v)` (20_memory.md R41). -/
def State.writeCell (s : State) (a : Nat) (v : Cell) : State := { s with mem := s.mem.write a v }

/-- MEM_SIZE of this run (00_scope.md R3). -/
def State.memSize (s : State) : Nat := s.params.memSize

/-- The raw words of the `n` cells from `a` on, cut short at the last cell of memory. -/
def State.cellsFrom (s : State) (a n : Nat) : List Cell :=
  (List.range (min n (s.memSize - a))).map fun k => s.readCell (a + k)

/-! ### Registers (10_state.md R11, R12) -/

/-- `x[i]`. -/
def State.reg (s : State) (i : RegIndex) : Word := s.regs[i]

/-- `x[i] <- v`. -/
def State.setReg (s : State) (i : RegIndex) (v : Word) : State := { s with regs := s.regs.set i v }

/-- A natural number reduced modulo 32768 (40_execution_loop.md R89). -/
def toWord (val : Nat) : Word := BitVec.ofNat 15 (val % 32768)

/-! ### The stack (10_state.md R18) -/

/-- `Push(v)`. -/
def State.push (s : State) (v : Cell) : State := { s with stack := v :: s.stack }

/-! ### Faults (60_exceptions.md) -/

/-- The code of a fault (60_exceptions.md R220). -/
def FaultInfo.code : FaultInfo → Nat
  | .unknownOpcode _ => 1
  | .truncatedInstruction _ => 2
  | .invalidAddressingMode _ => 3
  | .invalidWriteTarget _ => 4
  | .stackUnderflow => 5
  | .selfModifyingCodeDetected .. => 6
  | .divideByZero => 7
  | .memoryAddressOutOfRange _ => 8

/-- The name of a fault, its identity (60_exceptions.md R220). -/
def FaultInfo.name : FaultInfo → String
  | .unknownOpcode _ => "UnknownOpcode"
  | .truncatedInstruction _ => "TruncatedInstruction"
  | .invalidAddressingMode _ => "InvalidAddressingMode"
  | .invalidWriteTarget _ => "InvalidWriteTarget"
  | .stackUnderflow => "StackUnderflow"
  | .selfModifyingCodeDetected .. => "SelfModifyingCodeDetected"
  | .divideByZero => "DivideByZero"
  | .memoryAddressOutOfRange _ => "MemoryAddressOutOfRange"

/-- The part of a state that a fault leaves unspecified (40_execution_loop.md R92). -/
def State.contents (s : State) : Contents where
  regs := s.regs
  stack := s.stack
  mem := s.mem
  inbuf := s.inbuf
  dcache := s.dcache
  jdest := s.jdest
  watch := s.watch
  stepMode := s.stepMode
  stepSkip := s.stepSkip
  trace := s.trace

/-- Free contents brought into the model's canonical form for a memory of `size` cells: whatever the free value
lists is entered slot by slot, so that the form's invariants hold of a FAULTED core too (log entry 2). Every
contents that meets them is the result for some free value. -/
def canonicalContents (size : Nat) (c : Contents) : Contents where
  regs := c.regs
  stack := c.stack.filter fun v => v.toNat ≤ 32768
  mem := (c.mem.filter fun w => w.1 < size).foldl (fun m w => Memory.write m w.1 w.2) []
  inbuf := c.inbuf
  dcache := (c.dcache.filter fun w => w.1 < size && w.2.wellFormed).foldl (fun m w => fillSlot m w.1 w.2) []
  jdest := (c.jdest.filter fun a => a ≤ 32768).foldl insertAddr []
  watch := c.watch
  stepMode := c.stepMode
  stepSkip := c.stepSkip
  trace := c.trace

/-- The state a fault leaves: FAULTED with the record of 10_state.md R23, the output stream and pc as they were
(40_execution_loop.md R92, 10_state.md R15), and everything else of the core a free value. -/
def faultState (f : FaultInfo) (s : State) : State :=
  let c := canonicalContents s.memSize (Config.afterFault s.freeSeed s.contents)
  { s with
    run := .faulted ⟨f, s.pc⟩
    regs := c.regs
    stack := c.stack
    mem := c.mem
    inbuf := c.inbuf
    dcache := c.dcache
    jdest := c.jdest
    watch := c.watch
    stepMode := c.stepMode
    stepSkip := c.stepSkip
    trace := c.trace
    hold := .none
    freeSeed := s.freeSeed + 1 }

/-- `raise F(info)` (00_scope.md R5, 60_exceptions.md R229): the instruction ends at once and the core is FAULTED. -/
def raise (f : FaultInfo) (s : State) : Result := .next (faultState f s)

/-! ### The dispatch outcomes (40_execution_loop.md R86) -/

/-- CONTINUE: pc advances past the opcode word and its `arity` operand words. -/
def continueAfter (arity : Nat) (s : State) : Result := .next { s with pc := s.pc + BitVec.ofNat 16 (arity + 1) }

/-- JUMP: pc is the target; the target enters the jump-destination set when the instrumentation layer is enabled
(47_disassembly_cache.md R197). -/
def jumpTo (target : Cell) (s : State) : Result :=
  .next { s with
    pc := target
    jdest := if s.params.debugEnable then insertAddr s.jdest target.toNat else s.jdest }

/-- HALT: the run state is HALTED(EXPLICIT) and pc keeps its value. -/
def haltHere (s : State) : Result := .next { s with run := .halted .explicit }

/-- `Pop()` (10_state.md R18), the element given to the rest of the handler. -/
def withPop (s : State) (k : Cell → State → Result) : Result :=
  match s.stack with
  | [] => raise .stackUnderflow s
  | v :: rest => k v { s with stack := rest }

/-- The test of a data address against MEM_SIZE (20_memory.md R55), before the access. -/
def withDataAddress (addr : Word) (s : State) (k : Nat → Result) : Result :=
  if s.memSize ≤ addr.toNat then raise (.memoryAddressOutOfRange addr.toNat) s else k addr.toNat

end Sys2Proof.Machine
end

