-- ==== Sys2Proof/Machine/Operands.lean ====
section
/-! DEFINITION. The operand resolver: the read path and the write path (40_execution_loop.md R88, R89). -/

namespace Sys2Proof.Machine

/-- `Read(v)` (40_execution_loop.md R88): a literal is itself, a register reference is the register's value, any
other word is a fault. One level only. -/
def resolveRead (o : Operand) (s : State) : Except FaultInfo Word :=
  match o with
  | .lit v => .ok v
  | .reg i => .ok (s.reg i)
  | .invalid c => .error (.invalidAddressingMode c)

/-- `WriteReg(v, val)` (40_execution_loop.md R89): only a register reference can be written; the value is reduced
modulo 32768. -/
def resolveWrite (o : Operand) (val : Nat) (s : State) : Except FaultInfo State :=
  match o with
  | .reg i => .ok (s.setReg i (toWord val))
  | .lit _ => .error (.invalidWriteTarget o.toCell)
  | .invalid _ => .error (.invalidWriteTarget o.toCell)

/-- Resolve a source operand and give its value to the rest of the handler. -/
def withRead (o : Operand) (s : State) (k : Word → Result) : Result :=
  match resolveRead o s with
  | .ok v => k v
  | .error f => raise f s

/-- Write the destination operand and go on with the rest of the handler. -/
def withWrite (o : Operand) (val : Nat) (s : State) (k : State → Result) : Result :=
  match resolveWrite o val s with
  | .ok t => k t
  | .error f => raise f s

end Sys2Proof.Machine
end

