-- ==== Sys2Proof/Machine/Compare.lean ====
section
/-! DEFINITION. The shared shape of the three-operand instructions, and the comparisons eq and gt (42_compare.md). -/

namespace Sys2Proof.Machine

/-- The shape of `op a b c`: read `b`, read `c`, write the result to `a`, CONTINUE (40_execution_loop.md R90). -/
def binary (f : Word → Word → Nat) (a b c : Operand) (s : State) : Result :=
  withRead b s fun vb => withRead c s fun vc => withWrite a (f vb vc) s (continueAfter 3)

/-- `eq a b c` (42_compare.md R110). -/
def execEq (a b c : Operand) (s : State) : Result := binary (fun vb vc => truthValue (vb == vc)) a b c s

/-- `gt a b c`, unsigned and strict (42_compare.md R111). -/
def execGt (a b c : Operand) (s : State) : Result :=
  binary (fun vb vc => truthValue (decide (vb.toNat > vc.toNat))) a b c s

end Sys2Proof.Machine
end

