-- ==== Sys2Proof/Machine/Alu.lean ====
section
/-! DEFINITION. The arithmetic and logic instructions: add, mult, mod, and, or, not (44_alu.md). -/

namespace Sys2Proof.Machine

/-- The exact sum reduced modulo 32768 (44_alu.md R141). -/
def aluAdd (vb vc : Word) : Nat := (vb.toNat + vc.toNat) % 32768

/-- The exact product reduced modulo 32768 (44_alu.md R142). -/
def aluMult (vb vc : Word) : Nat := (vb.toNat * vc.toNat) % 32768

/-- The remainder of unsigned division, for a divisor that is not 0 (44_alu.md R143). -/
def aluMod (vb vc : Word) : Nat := vb.toNat % vc.toNat

/-- Bitwise and (44_alu.md R144). -/
def aluAnd (vb vc : Word) : Nat := (vb &&& vc).toNat

/-- Bitwise inclusive or (44_alu.md R145). -/
def aluOr (vb vc : Word) : Nat := (vb ||| vc).toNat

/-- The 15-bit complement, 32767 - operand (44_alu.md R146). -/
def aluNot (vb : Word) : Nat := 32767 - vb.toNat

/-- `add a b c` (44_alu.md R141). -/
def execAdd (a b c : Operand) (s : State) : Result := binary aluAdd a b c s

/-- `mult a b c` (44_alu.md R142). -/
def execMult (a b c : Operand) (s : State) : Result := binary aluMult a b c s

/-- `mod a b c` (44_alu.md R143): a zero divisor faults before the destination is checked. -/
def execMod (a b c : Operand) (s : State) : Result :=
  withRead b s fun vb => withRead c s fun vc =>
    if vc = 0 then raise .divideByZero s else withWrite a (aluMod vb vc) s (continueAfter 3)

/-- `and a b c` (44_alu.md R144). -/
def execAnd (a b c : Operand) (s : State) : Result := binary aluAnd a b c s

/-- `or a b c` (44_alu.md R145). -/
def execOr (a b c : Operand) (s : State) : Result := binary aluOr a b c s

/-- `not a b` (44_alu.md R146). -/
def execNot (a b : Operand) (s : State) : Result :=
  withRead b s fun vb => withWrite a (aluNot vb) s (continueAfter 2)

end Sys2Proof.Machine
end

