-- ==== Sys2Proof/Machine/Control.lean ====
section
/-! DEFINITION. The control transfer instructions: halt, jmp, jt, jf, call, ret, noop (43_control_transfer.md). -/

namespace Sys2Proof.Machine

/-- The address a resolved jump target names, a Word as it stands (43_control_transfer.md R128). -/
def targetOf (v : Word) : Cell := v.setWidth 16

/-- `halt` (43_control_transfer.md R120). -/
def execHalt (s : State) : Result := haltHere s

/-- `jmp a` (43_control_transfer.md R121). -/
def execJmp (a : Operand) (s : State) : Result := withRead a s fun t => jumpTo (targetOf t) s

/-- `jt a b` (43_control_transfer.md R122): `b` is resolved only when the jump is taken. -/
def execJt (a b : Operand) (s : State) : Result :=
  withRead a s fun v =>
    if isNonZero v then withRead b s fun t => jumpTo (targetOf t) s else continueAfter 2 s

/-- `jf a b` (43_control_transfer.md R123): `b` is resolved only when the jump is taken. -/
def execJf (a b : Operand) (s : State) : Result :=
  withRead a s fun v =>
    if isNonZero v then continueAfter 2 s else withRead b s fun t => jumpTo (targetOf t) s

/-- `call a` (43_control_transfer.md R124): the address pushed is not reduced modulo 32768. -/
def execCall (a : Operand) (s : State) : Result :=
  withRead a s fun t => jumpTo (targetOf t) (s.push (s.pc + 2))

/-- `ret` (43_control_transfer.md R125): the element becomes pc as it is. -/
def execRet (s : State) : Result := withPop s fun v t => jumpTo v t

/-- `noop` (43_control_transfer.md R126). -/
def execNoop (s : State) : Result := continueAfter 0 s

end Sys2Proof.Machine
end

