-- ==== Sys2Proof/Machine/Io.lean ====
section
/-! DEFINITION. The character I/O instructions out and in, and the I/O channel with its escape hook (46_io.md). -/

namespace Sys2Proof.Machine

/-- `Emit(c)` (46_io.md R171). -/
def State.emit (s : State) (c : Word) : State := { s with outs := s.outs ++ [c] }

/-- Take from a buffer, its front first, the first character that is delivered to the program; the rest becomes the
input buffer. An escape character, when the hook is enabled, is not delivered and overwrites the last register
with ESCAPE_VALUE (46_io.md R173, R175). None when the buffer runs out. -/
def takeChar : List Nat → State → Option Nat × State
  | [], s => (none, { s with inbuf := [] })
  | ch :: rest, s =>
    if s.params.escapeEnable && ch == Config.escapeChar then
      takeChar rest (s.setReg Config.escapeRegister (toWord s.params.escapeValue))
    else (some ch, { s with inbuf := rest })

/-- `NextChar()` (46_io.md R173): from the input buffer, or, once that is empty, from the host's next line with a
newline behind it. None when the core must hold for a line (R174). -/
def nextChar (s : State) : Option Nat × State :=
  match takeChar s.inbuf s with
  | (some ch, t) => (some ch, t)
  | (none, t) =>
    match t.hostLines with
    | [] => (none, t)
    | line :: lines => takeChar (line ++ [Config.newline]) { t with hostLines := lines }

/-- `out a` (46_io.md R170). -/
def execOut (a : Operand) (s : State) : Result := withRead a s fun c => continueAfter 1 (s.emit c)

/-- `in a` (46_io.md R172): the character is taken, with any hold, before the destination is checked. While there is
no line the core holds, still RUNNING, at this instruction (R174; log entry 8). -/
def execInp (a : Operand) (s : State) : Result :=
  match nextChar s with
  | (some ch, t) => withWrite a ch t (continueAfter 1)
  | (none, t) => .next { t with hold := .input }

end Sys2Proof.Machine
end

