-- ==== Sys2Proof/Machine/LoadStore.lean ====
section
/-! DEFINITION. The memory instructions: rmem, wmem (45_load_store.md). -/

namespace Sys2Proof.Machine

/-- `rmem a b` (45_load_store.md R160): the raw cell is reduced modulo 32768 by the write path. -/
def execRmem (a b : Operand) (s : State) : Result :=
  withRead b s fun addr => withDataAddress addr s fun k => withWrite a (s.readCell k).toNat s (continueAfter 2)

/-- `wmem a b` (45_load_store.md R161): the first operand is the address; the value is a Word, so bit 15 of the cell
becomes 0. -/
def execWmem (a b : Operand) (s : State) : Result :=
  withRead a s fun addr => withRead b s fun v => withDataAddress addr s fun k =>
    continueAfter 2 (s.writeCell k (v.setWidth 16))

end Sys2Proof.Machine
end

