-- ==== Sys2Proof/Machine/MoveStack.lean ====
section
/-! DEFINITION. The move and stack instructions: set, push, pop (41_move_stack.md). -/

namespace Sys2Proof.Machine

/-- `set a b` (41_move_stack.md R100). -/
def execSet (a b : Operand) (s : State) : Result :=
  withRead b s fun v => withWrite a v.toNat s (continueAfter 2)

/-- `push a` (41_move_stack.md R101). -/
def execPush (a : Operand) (s : State) : Result :=
  withRead a s fun v => continueAfter 1 (s.push (v.setWidth 16))

/-- `pop a` (41_move_stack.md R102): the element is taken before the destination is checked. -/
def execPop (a : Operand) (s : State) : Result :=
  withPop s fun v t => withWrite a v.toNat t (continueAfter 1)

end Sys2Proof.Machine
end

