-- ==== Sys2Proof/Machine/Fetch.lean ====
section
/-! DEFINITION. Stages 1 to 4 of the loop: the end-of-memory test, the opcode fetch, the bounds test and the operand
fetch (40_execution_loop.md R81 to R84); and storing an instruction where the next fetch finds it. -/

namespace Sys2Proof.Machine

/-- Stage 1 (40_execution_loop.md R81): pc is beyond the last cell. -/
def offEnd (s : State) : Bool := decide (s.memSize ≤ s.pc.toNat)

/-- Stages 2 to 4 for a pc inside memory: instruction fetch always reads memory (20_memory.md R51). The words that
exist from pc on are decoded; too few of them for the arity is the bounds test of 40_execution_loop.md R83. An
unknown opcode reports up to five words (60_exceptions.md R221). -/
def fetch (s : State) : Except FaultInfo Instr :=
  match decode (s.cellsFrom s.pc.toNat maxWords) with
  | .ok (i, _) => .ok i
  | .error (.unknownOpcode _) => .error (.unknownOpcode (s.cellsFrom s.pc.toNat 5))
  | .error (.truncated w0) => .error (.truncatedInstruction w0)
  -- No word at all: not reached, since stage 1 has found pc inside memory.
  | .error .noWord => .error (.unknownOpcode [])

/-- Store words in the cells from `a` on, as far as memory goes. -/
def storeCells : List Cell → Nat → State → State
  | [], _, s => s
  | w :: ws, a, s => storeCells ws (a + 1) (if a < s.memSize then s.writeCell a w else s)

end Sys2Proof.Machine
end

