-- ==== Sys2Proof/Machine/Render.lean ====
section
/-! DEFINITION. The canonical text form of an instruction (30_encoding.md R71, R72; 47_disassembly_cache.md R192, R193)
and the export of the disassembly cache (R199). -/

namespace Sys2Proof.Machine

/-- The mnemonic of the opcode map, in lower case (30_encoding.md R65, 47_disassembly_cache.md R192). -/
def mnemonicOf : Instr → String
  | .halt => "halt"
  | .set .. => "set"
  | .push .. => "push"
  | .pop .. => "pop"
  | .eq .. => "eq"
  | .gt .. => "gt"
  | .jmp .. => "jmp"
  | .jt .. => "jt"
  | .jf .. => "jf"
  | .add .. => "add"
  | .mult .. => "mult"
  | .mod .. => "mod"
  | .and .. => "and"
  | .or .. => "or"
  | .not .. => "not"
  | .rmem .. => "rmem"
  | .wmem .. => "wmem"
  | .call .. => "call"
  | .ret => "ret"
  | .out .. => "out"
  | .inp .. => "in"
  | .noop => "noop"

/-- `RenderOperand(v)` (47_disassembly_cache.md R193): a register is `r` and its index plus 1; every other word, an
invalid one too, is its decimal. -/
def renderOperand : Operand → String
  | .lit v => Nat.repr v.toNat
  | .reg i => "r" ++ Nat.repr (i.val + 1)
  | .invalid c => Nat.repr c.toNat

/-- `Render(w0, ops)` (47_disassembly_cache.md R192): the mnemonic, then one space and the text of each operand. -/
def render (i : Instr) : String := i.operands.foldl (fun text o => text ++ " " ++ renderOperand o) (mnemonicOf i)

/-- `Export()` (47_disassembly_cache.md R199): one line for each filled slot by rising address, with an empty line
before an address that was ever jumped to. -/
def exportLines (s : State) : List String :=
  s.dcache.flatMap fun c =>
    (if c.1 ∈ s.jdest then [""] else []) ++ [Nat.repr c.1 ++ "| " ++ render c.2]

end Sys2Proof.Machine
end

