-- ==== Sys2Proof/Machine/Debugger.lean ====
section
/-! DEFINITION. The debugger session: the operator's commands and the operator point (60_exceptions.md R238 to R247). -/

namespace Sys2Proof.Machine

/-- How far stage 5 of an iteration came (40_execution_loop.md R80). -/
inductive Stage5 where
  /-- The instruction is to be executed now, in this state. -/
  | proceed (s : State)
  /-- The core holds at the operator point (60_exceptions.md R239). -/
  | held (s : State)
  /-- A fault ended the iteration before the instruction executed (47_disassembly_cache.md R194). -/
  | stopped (s : State)

/-- The set of the listed register indices, as marks. -/
def watchSet (rs : List Nat) : Vector Bool 8 := Vector.ofFn fun i => rs.contains i.val

/-- What a command does to the state (60_exceptions.md R240 to R247). A register outside 0 to 7 makes the command
malformed, and a malformed command changes nothing (R242, R247; 92_eei_decisions.md D21). -/
def runCommand (c : Command) (s : State) : State :=
  match c with
  | .help => s
  | .r => s
  | .rs i v => if h : i < 8 then s.setReg ⟨i, h⟩ (toWord v) else s
  | .d => { s with trace := !s.trace }
  | .n count => { s with stepSkip := count }
  | .w rs => if rs.all (· < 8) then { s with watch := watchSet rs } else s
  | .dis => s
  | .malformed => s

/-- The commands the operator gives while the core holds, one at a time, until one has set `step_skip`; true when one
has, false when the commands run out first (60_exceptions.md R239). The commands used are gone from the queue. -/
def takeCommands : List Command → State → Bool × State
  | [], s => (false, { s with commands := [] })
  | c :: cs, s =>
    let t := runCommand c s
    if t.stepSkip = 0 then takeCommands cs t else (true, { t with commands := cs })

/-- The core leaves the operator point: a count that runs loses one (60_exceptions.md R239). -/
def leaveOperatorPoint (s : State) : State := { s with stepSkip := s.stepSkip - 1, hold := .none }

/-- `OperatorPoint()` (60_exceptions.md R239). -/
def operatorPoint (s : State) : Stage5 :=
  if s.stepMode && s.stepSkip == 0 then
    match takeCommands s.commands s with
    | (true, t) => .proceed (leaveOperatorPoint t)
    | (false, t) => .held { t with hold := .operator }
  else .proceed (leaveOperatorPoint s)

/-- What the operator is shown, as far as the spec says what it is (92_eei_decisions.md D17: the operator's console is
no state of the core; 93_implementation_defined.md U13: its texts are open). Log entry 14. -/
inductive Shown where
  /-- The registers `x[0]` to `x[7]`. -/
  | registers (values : Vector Word 8)
  /-- The lines of the export. -/
  | listing (lines : List String)
  /-- A text that the spec leaves open, or nothing. -/
  | openText
  deriving DecidableEq, Repr

/-- What a command shows the operator (60_exceptions.md R240, R241, R246, R247). -/
def shown (c : Command) (s : State) : Shown :=
  match c with
  | .help => .openText
  | .r => .registers s.regs
  | .rs .. => .openText
  | .d => .openText
  | .n _ => .openText
  | .w _ => .openText
  | .dis => .listing (exportLines s)
  | .malformed => .openText

/-- What the trace shows of a fetched instruction: its address and its rendering, when `trace` is true
(47_disassembly_cache.md R203). -/
def traceShown (i : Instr) (s : State) : Option (Nat × String) :=
  if s.trace then some (s.pc.toNat, render i) else none

end Sys2Proof.Machine
end

