-- ==== Sys2Proof/Machine/Instrument.lean ====
section
/-! DEFINITION. The instrumentation layer: stage 5 of the loop (40_execution_loop.md R85, 47_disassembly_cache.md R190 to
R198). -/

namespace Sys2Proof.Machine

/-- The self-modification check (47_disassembly_cache.md R194): the slot of this address holds another instruction.
Renderings are equal exactly when the instructions are (R196). -/
def selfModification (i : Instr) (s : State) : Option FaultInfo :=
  match slotAt s.dcache s.pc.toNat with
  | none => none
  | some old =>
    if s.params.smcCheckEnable && old != i then
      some (.selfModifyingCodeDetected s.pc.toNat (render old) (render i))
    else none

/-- "Store/update the cache" (47_disassembly_cache.md R195). -/
def cacheInstr (i : Instr) (s : State) : State := { s with dcache := fillSlot s.dcache s.pc.toNat i }

/-- Some operand word names a watched register, in any position (47_disassembly_cache.md R198). -/
def watchHit (i : Instr) (s : State) : Bool :=
  i.operands.any fun o => match o with
    | .reg r => s.watch[r]
    | .lit _ => false
    | .invalid _ => false

/-- The watch check: a hit empties the watch set, engages single-step mode and cancels a running count
(47_disassembly_cache.md R198). -/
def watchCheck (i : Instr) (s : State) : State :=
  if watchHit i s then
    { s with watch := Vector.replicate 8 false, stepMode := true, stepSkip := 0 }
  else s

/-- `Instrument(addr, w0, ops)` (47_disassembly_cache.md R191). Showing a trace line changes no state (R203). -/
def instrument (i : Instr) (s : State) : Stage5 :=
  match selfModification i s with
  | some f => .stopped (faultState f s)
  | none => operatorPoint (watchCheck i (cacheInstr i s))

/-- Stage 5 (40_execution_loop.md R85). An iteration that held resumes where it held (log entry 8): at the operator
point, or past it in the handler of `in`. -/
def stage5 (i : Instr) (s : State) : Stage5 :=
  if s.params.debugEnable then
    match s.hold with
    | .none => instrument i s
    | .operator => operatorPoint s
    | .input => .proceed { s with hold := .none }
  else .proceed { s with hold := .none }

end Sys2Proof.Machine
end

