-- ==== Sys2Proof/Machine/Step.lean ====
section
/-! DEFINITION. One step: one iteration of the Execution Loop (40_execution_loop.md R80, 70_reset_and_hazards.md R268). -/

namespace Sys2Proof.Machine

/-- `Step()` (40_execution_loop.md R80). Only a RUNNING core executes an iteration (10_state.md R22): a HALTED core stays
as it is (log entry 9), a FAULTED one reports its record (log entry 1). -/
def step (s : State) : Host.Outcome State Fault Refusal :=
  match s.run with
  | .halted _ => .next s
  | .faulted record => .fault (.faulted record)
  | .running =>
    if offEnd s then .next { s with run := .halted .offEnd }
    else
      match fetch s with
      | .error f => raise f s
      | .ok i =>
        match stage5 i s with
        | .proceed t => exec i t
        | .held t => .next t
        | .stopped t => .next t

/-- The state whose very next step fetches and runs the instruction of the bits `w` (log entry 19): its words from pc
on, the core RUNNING and not waiting. -/
def State.withFetchWord (s : State) (nbits w : Nat) : State :=
  storeCells (tableWords nbits w) s.pc.toNat { s with run := .running, hold := .none }

end Sys2Proof.Machine
end

