-- ==== Sys2Proof/Machine/Launch.lean ====
section
/-! DEFINITION. The start of a run: program load, patch facility, reset (70_reset_and_hazards.md R260 to R263). -/

namespace Sys2Proof.Machine

/-- The words of an image, "a byte stream interpreted as little-endian 16-bit words"; none for an odd length
(70_reset_and_hazards.md R261, 30_encoding.md R74). -/
def imageWords : List (BitVec 8) → Option (List Cell)
  | [] => some []
  | [_] => none
  | lo :: hi :: rest =>
    match imageWords rest with
    | some ws => some (BitVec.ofNat 16 (lo.toNat + 256 * hi.toNat) :: ws)
    | none => none

/-- Words loaded sequentially from address `a` (70_reset_and_hazards.md R261). -/
def loadWords : List Cell → Nat → Memory → Memory
  | [], _, m => m
  | w :: ws, a, m => loadWords ws (a + 1) (m.write a w)

/-- The patches applied in list order, a later one winning (70_reset_and_hazards.md R262). -/
def applyPatches : List (Nat × Cell) → Memory → Memory
  | [], m => m
  | (a, v) :: rest, m => applyPatches rest (m.write a v)

/-- The state of 10_state.md R31 over a launch memory and the inputs of the run (70_reset_and_hazards.md R263). -/
def startState (p : Params) (mem : Memory) (lines : List (List Nat)) (commands : List Command) : State :=
  { State.reset with
    params := p
    mem := mem
    stepMode := p.stepModeReset
    hostLines := lines
    commands := commands }

/-- The start of a run (70_reset_and_hazards.md R260): load, then patch, then the core is RUNNING at 0. A malformed
launch is refused (92_eei_decisions.md D4; log entry 11). -/
def launch (p : Params) (image : List (BitVec 8)) (patches : List (Nat × Cell)) (lines : List (List Nat))
    (commands : List Command) : Result :=
  match imageWords image with
  | none => .refused .oddLengthImage
  | some ws =>
    if p.memSize < ws.length then .refused .imageTooLong
    else if patches.any fun q => p.memSize ≤ q.1 then .refused .patchOutOfRange
    else .next (startState p (applyPatches patches (loadWords ws 0 [])) lines commands)

end Sys2Proof.Machine
end

