-- ==== Sys2Proof/Safety.lean ====
section
/-! DEFINITION. What counts as a safe run, and the invariant of the core's states. -/

namespace Sys2Proof.Machine

/-- The core is FAULTED (10_state.md R22). -/
def State.isFaulted (s : State) : Bool :=
  match s.run with
  | .faulted _ => true
  | .halted _ => false
  | .running => false

/-- A run is over when the run state is HALTED or FAULTED, and only then (70_reset_and_hazards.md R270). -/
def State.isOver (s : State) : Bool :=
  match s.run with
  | .faulted _ => true
  | .halted _ => true
  | .running => false

/-- The first `k` iterations from `s` end in a state that is not FAULTED: a safe run of that length. -/
def SafeFor (k : Nat) (s : State) : Prop := ∃ t, Sys2Proof.core.run k s = .next t ∧ t.isFaulted = false

/-- The invariant of the core's states: memory in canonical form and inside MEM_SIZE (10_state.md R20), stack elements
and pc at most 32768 (R14, R19), the disassembly cache one slot per address of memory (R26), the jump-destination
set an ordered set of 16-bit addresses at most 32768 (R27). -/
structure Kept (s : State) : Prop where
  memCanonical : Memory.wf s.mem
  memInside : ∀ c ∈ s.mem, c.1 < s.memSize
  stackBound : ∀ v ∈ s.stack, v.toNat ≤ 32768
  pcBound : s.pc.toNat ≤ 32768
  cacheRising : Rising s.dcache
  cacheInside : ∀ c ∈ s.dcache, c.1 < s.memSize ∧ c.2.wellFormed = true
  jdestRising : s.jdest.Pairwise (· < ·)
  jdestBound : ∀ a ∈ s.jdest, a ≤ 32768

end Sys2Proof.Machine
end

