-- ==== Sys2Proof/Certificates/Slice0/Obligations.lean ====
section
/-! DEFINITION. The statements for the provers, with the few notions they are written in. Each docstring names the rules of
spec/ it formalises. -/

/-! ### Notions -/

namespace Sys2Proof.Spec

open Sys2Proof.Machine

/-- The source operand `o` resolves to `v`: a literal to itself, a register reference to the register's value. -/
def ReadsAs (s : State) (o : Operand) (v : Word) : Prop :=
  o = .lit v ∨ ∃ i : RegIndex, o = .reg i ∧ s.regs[i] = v

/-- The operand is no register reference, so it cannot be written. -/
def NotRegister (o : Operand) : Prop := ∀ d, o ≠ .reg d

/-- The answer is a core FAULTED with `f` at the pc of `s`, the output stream and pc as in `s`. -/
def Raises (r : Result) (s : State) (f : FaultInfo) : Prop :=
  ∃ t, r = .next t ∧ t.run = .faulted ⟨f, s.pc⟩ ∧ t.outs = s.outs ∧ t.pc = s.pc

/-- The meaning of a three-operand instruction whose result is the number `res vb vc`, a Word: the destination gets it
and pc advances by 4; the faults come in the order b, c, a; the words are the opcode and the operands. -/
def ThreeOperands (mk : Operand → Operand → Operand → Instr) (op : Cell) (res : Word → Word → Nat) : Prop :=
  ∀ (s : State) (a b c : Operand),
    (∀ d vb vc, a = .reg d → ReadsAs s b vb → ReadsAs s c vc →
      exec (mk a b c) s = .next { s with regs := s.regs.set d (BitVec.ofNat 15 (res vb vc)), pc := s.pc + 4 }) ∧
    (∀ w, b = .invalid w → Raises (exec (mk a b c) s) s (.invalidAddressingMode w)) ∧
    (∀ vb w, ReadsAs s b vb → c = .invalid w → Raises (exec (mk a b c) s) s (.invalidAddressingMode w)) ∧
    (∀ vb vc, ReadsAs s b vb → ReadsAs s c vc → NotRegister a →
      Raises (exec (mk a b c) s) s (.invalidWriteTarget a.toCell)) ∧
    encode (mk a b c) = [op, a.toCell, b.toCell, c.toCell]

/-- The meaning of a two-operand instruction `op a b` that writes the number `res vb`, a Word. -/
def TwoOperands (mk : Operand → Operand → Instr) (op : Cell) (res : Word → Nat) : Prop :=
  ∀ (s : State) (a b : Operand),
    (∀ d vb, a = .reg d → ReadsAs s b vb →
      exec (mk a b) s = .next { s with regs := s.regs.set d (BitVec.ofNat 15 (res vb)), pc := s.pc + 3 }) ∧
    (∀ w, b = .invalid w → Raises (exec (mk a b) s) s (.invalidAddressingMode w)) ∧
    (∀ vb, ReadsAs s b vb → NotRegister a → Raises (exec (mk a b) s) s (.invalidWriteTarget a.toCell)) ∧
    encode (mk a b) = [op, a.toCell, b.toCell]

/-- The state after a jump to `target`: pc is the target, which enters the jump-destination set when the
instrumentation layer is enabled. -/
def jumped (s : State) (target : Cell) : State :=
  { s with
    pc := target
    jdest := if s.params.debugEnable then insertAddr s.jdest target.toNat else s.jdest }

/-- The meaning of a conditional jump taken when `taken v` of its first operand holds. -/
def ConditionalJump (mk : Operand → Operand → Instr) (op : Cell) (taken : Word → Prop) : Prop :=
  ∀ (s : State) (a b : Operand),
    (∀ v t, ReadsAs s a v → taken v → ReadsAs s b t →
      exec (mk a b) s = .next (jumped s (t.setWidth 16))) ∧
    (∀ v, ReadsAs s a v → ¬taken v → exec (mk a b) s = .next { s with pc := s.pc + 3 }) ∧
    (∀ w, a = .invalid w → Raises (exec (mk a b) s) s (.invalidAddressingMode w)) ∧
    (∀ v w, ReadsAs s a v → taken v → b = .invalid w → Raises (exec (mk a b) s) s (.invalidAddressingMode w)) ∧
    encode (mk a b) = [op, a.toCell, b.toCell]

/-- The core is about to execute `i`: RUNNING, pc inside memory, the words from pc on decode to `i`. -/
def AtInstr (s : State) (i : Instr) : Prop :=
  s.run = .running ∧ s.pc.toNat < s.memSize ∧ ∃ rest, decode (s.cellsFrom s.pc.toNat 4) = .ok (i, rest)

/-- A step of an enabled layer that finds `i` at pc, unchanged since it was last fetched there, leaves `i` in the slot
of that address. -/
def CachedBeforeItExecutes (i : Instr) : Prop :=
  ∀ s : State, AtInstr s i → s.params.debugEnable = true → s.hold = .none →
    (slotAt s.dcache s.pc.toNat = none ∨ slotAt s.dcache s.pc.toNat = some i) →
    ∃ t, step s = .next t ∧ slotAt t.dcache s.pc.toNat = some i

/-- The buffer is `n` escape characters, the character `ch` that is delivered, and `rest`. Without the hook nothing is
an escape. -/
def EscapesThen (esc : Bool) (buf : List Nat) (n ch : Nat) (rest : List Nat) : Prop :=
  buf = List.replicate n 37 ++ ch :: rest ∧ if esc then ch ≠ 37 else n = 0

/-- The buffer is `n` escape characters and nothing else. -/
def OnlyEscapes (esc : Bool) (buf : List Nat) (n : Nat) : Prop :=
  buf = List.replicate n 37 ∧ (esc = false → n = 0)

/-- The registers after `n` escape characters were consumed. -/
def regsAfterEscapes (s : State) (n : Nat) : Vector Word 8 :=
  if n = 0 then s.regs else s.regs.set 7 (BitVec.ofNat 15 s.params.escapeValue)

/-- `NextChar()` takes `ch` and leaves `u`: from the buffer, or from the host's next line with its newline. -/
def Delivers (s : State) (ch : Nat) (u : State) : Prop :=
  (∃ n rest, EscapesThen s.params.escapeEnable s.inbuf n ch rest ∧
    u = { s with inbuf := rest, regs := regsAfterEscapes s n }) ∨
  ∃ m n line lines rest, OnlyEscapes s.params.escapeEnable s.inbuf m ∧ s.hostLines = line :: lines ∧
    EscapesThen s.params.escapeEnable (line ++ [10]) n ch rest ∧
    u = { s with inbuf := rest, hostLines := lines, regs := regsAfterEscapes s (m + n) }

/-- The buffer holds no character to deliver and the host supplies no line. -/
def NoInput (s : State) (m : Nat) : Prop := OnlyEscapes s.params.escapeEnable s.inbuf m ∧ s.hostLines = []

/-- The destination operand of the instructions that write a register and nothing else. -/
def destOf : Instr → Option Operand
  | .set a _ => some a
  | .eq a _ _ => some a
  | .gt a _ _ => some a
  | .add a _ _ => some a
  | .mult a _ _ => some a
  | .mod a _ _ => some a
  | .and a _ _ => some a
  | .or a _ _ => some a
  | .not a _ => some a
  | .rmem a _ => some a
  | .halt | .push _ | .pop _ | .jmp _ | .jt _ _ | .jf _ _ | .wmem _ _ | .call _ | .ret | .out _ | .inp _ | .noop => none

/-- The source operands of an instruction (the S columns of the opcode map). -/
def sourcesOf : Instr → List Operand
  | .set _ b => [b]
  | .push a => [a]
  | .eq _ b c => [b, c]
  | .gt _ b c => [b, c]
  | .jmp a => [a]
  | .jt a b => [a, b]
  | .jf a b => [a, b]
  | .add _ b c => [b, c]
  | .mult _ b c => [b, c]
  | .mod _ b c => [b, c]
  | .and _ b c => [b, c]
  | .or _ b c => [b, c]
  | .not _ b => [b]
  | .rmem _ b => [b]
  | .wmem a b => [a, b]
  | .call a => [a]
  | .out a => [a]
  | .halt | .pop _ | .ret | .inp _ | .noop => []

/-- The instruction jumps in this state: the outcome JUMP of 40_execution_loop.md R87. -/
def Jumps (s : State) : Instr → Prop
  | .jmp _ => True
  | .call _ => True
  | .ret => True
  | .jt a _ => ∃ v, ReadsAs s a v ∧ v ≠ 0
  | .jf a _ => ReadsAs s a 0
  | .halt | .set _ _ | .push _ | .pop _ | .eq _ _ _ | .gt _ _ _ | .add _ _ _ | .mult _ _ _ | .mod _ _ _ | .and _ _ _
  | .or _ _ _ | .not _ _ | .rmem _ _ | .wmem _ _ | .out _ | .inp _ | .noop => False

/-- Two cores that a program cannot tell apart: everything but the instrumentation layer's own state agrees. -/
def SameCore (s t : State) : Prop :=
  t.regs = s.regs ∧ t.pc = s.pc ∧ t.stack = s.stack ∧ t.mem = s.mem ∧ t.run = s.run ∧ t.inbuf = s.inbuf ∧
  t.outs = s.outs ∧ t.hostLines = s.hostLines ∧ (t.hold = .input ↔ s.hold = .input) ∧
  t.params.lastCell = s.params.lastCell ∧ t.params.escapeEnable = s.params.escapeEnable ∧
  t.params.escapeValue = s.params.escapeValue

/-- Two cores agree: the same core, or FAULTED with the same record and output stream, where nothing else is
specified (40_execution_loop.md R92). -/
def Agree (s t : State) : Prop :=
  (s.isFaulted = false ∧ SameCore s t) ∨
  ∃ r, s.run = .faulted r ∧ t.run = .faulted r ∧ t.outs = s.outs ∧ t.pc = s.pc

/-- The outcomes of two runs agree. -/
def OutcomesAgree (x y : Result) : Prop :=
  match x, y with
  | .next s, .next t => Agree s t
  | .fault f, .fault g => f = g
  | .next _, .fault _ | .next _, .refused _ | .fault _, .next _ | .fault _, .refused _ | .refused _, _ => False

/-- The fetch of `i` by an enabled layer raises no SelfModifyingCodeDetected. -/
def Unmodified (s : State) (i : Instr) : Prop :=
  s.params.smcCheckEnable = false ∨ slotAt s.dcache s.pc.toNat = none ∨ slotAt s.dcache s.pc.toNat = some i

/-- An operand word of `i`, in any position, names a watched register. -/
def NamesWatched (s : State) (i : Instr) : Prop := ∃ r : RegIndex, Operand.reg r ∈ i.operands ∧ s.watch[r] = true

/-- The mnemonics of the opcode map, in the order of the opcodes (30_encoding.md R65). -/
def mnemonics : List String :=
  ["halt", "set", "push", "pop", "eq", "gt", "jmp", "jt", "jf", "add", "mult"] ++
  ["mod", "and", "or", "not", "rmem", "wmem", "call", "ret", "out", "in", "noop"]

/-- `RenderOperand(v)` on the raw word (47_disassembly_cache.md R193). -/
def operandText (v : Cell) : String :=
  if 32768 ≤ v.toNat ∧ v.toNat < 32776 then "r" ++ Nat.repr (v.toNat - 32767) else Nat.repr v.toNat

/-- The state after the layer has cached `i`. -/
def cached (s : State) (i : Instr) : State := { s with dcache := fillSlot s.dcache s.pc.toNat i }

end Sys2Proof.Spec

open Sys2Proof Sys2Proof.Machine Sys2Proof.Spec

/-! ### The instructions: result, completion, faults in their order, encoding -/

/-- `halt` (43_control_transfer.md R120): HALTED(EXPLICIT), pc and all else as they were; zero-filled memory decodes as
`halt`; cached like any other instruction. `noop` (R126): only pc advances; cached too; behind a `noop` in the last cell
the next iteration is the halt OFF_END. -/
def Obligations.HaltStopsAndNoopOnlyAdvances : Prop :=
  (∀ s, exec .halt s = .next { s with run := .halted .explicit }) ∧
  encode .halt = [0] ∧ (∀ rest, decode (0 :: rest) = .ok (.halt, rest)) ∧ CachedBeforeItExecutes .halt ∧
  (∀ s : State, exec .noop s = .next { s with pc := s.pc + 1 }) ∧ encode .noop = [21] ∧ CachedBeforeItExecutes .noop ∧
  ∀ s : State, s.run = .running → s.pc.toNat + 1 = s.memSize →
    ∃ t, exec .noop s = .next t ∧ step t = .next { t with run := .halted .offEnd }

/-- `set a b` (41_move_stack.md R100). The fault order is that of the rule (R90: the spec's decision D10). -/
def Obligations.SetCopiesAValue : Prop := TwoOperands .set 1 fun vb => vb.toNat

/-- `push a` and `pop a` (41_move_stack.md R101, R102): `push` puts a Word on top; `pop` takes the top, reduced modulo 32768
by the write path, and finds an empty stack before it checks its destination. -/
def Obligations.PushAndPopWorkOnTheTop : Prop :=
  ∀ (s : State) (a : Operand),
    (∀ v, ReadsAs s a v → exec (.push a) s = .next { s with stack := v.setWidth 16 :: s.stack, pc := s.pc + 2 }) ∧
    (∀ w, a = .invalid w → Raises (exec (.push a) s) s (.invalidAddressingMode w)) ∧
    encode (.push a) = [2, a.toCell] ∧
    (∀ d v rest, a = .reg d → s.stack = v :: rest →
      exec (.pop a) s =
        .next { s with stack := rest, regs := s.regs.set d (BitVec.ofNat 15 (v.toNat % 32768)), pc := s.pc + 2 }) ∧
    (s.stack = [] → Raises (exec (.pop a) s) s .stackUnderflow) ∧
    (s.stack ≠ [] → NotRegister a → Raises (exec (.pop a) s) s (.invalidWriteTarget a.toCell)) ∧
    encode (.pop a) = [3, a.toCell]

/-- `eq a b c` and `gt a b c` (42_compare.md R110, R111): exactly 1 or 0; `gt` is unsigned and strict. -/
def Obligations.ComparisonsWriteOneOrZero : Prop :=
  (ThreeOperands .eq 4 fun vb vc => if vb = vc then 1 else 0) ∧
  ThreeOperands .gt 5 fun vb vc => if vc.toNat < vb.toNat then 1 else 0

/-- `jmp a` (43_control_transfer.md R121). -/
def Obligations.JmpGoesToItsTarget : Prop :=
  ∀ (s : State) (a : Operand),
    (∀ t, ReadsAs s a t → exec (.jmp a) s = .next (jumped s (t.setWidth 16))) ∧
    (∀ w, a = .invalid w → Raises (exec (.jmp a) s) s (.invalidAddressingMode w)) ∧
    encode (.jmp a) = [6, a.toCell]

/-- `jt a b` and `jf a b` (43_control_transfer.md R122, R123): the target is resolved only when the jump is taken, and
for every value exactly one of the two jumps. That an untaken jump ignores an invalid target is the spec's decision
D10. -/
def Obligations.ConditionalJumpsTestForZero : Prop := ConditionalJump .jt 7 (· ≠ 0) ∧ ConditionalJump .jf 8 (· = 0)

/-- `add a b c` and `mult a b c` (44_alu.md R141, R142): the exact result modulo 32768. -/
def Obligations.AddAndMultAreModular : Prop :=
  (ThreeOperands .add 9 fun vb vc => (vb.toNat + vc.toNat) % 32768) ∧
  ThreeOperands .mult 10 fun vb vc => (vb.toNat * vc.toNat) % 32768

/-- `mod a b c` (44_alu.md R143): the unsigned remainder; a zero divisor faults after the sources and before the
destination. DivideByZero is the spec's own decision D11. -/
def Obligations.ModIsTheRemainder : Prop :=
  ∀ (s : State) (a b c : Operand),
    (∀ d vb vc, a = .reg d → ReadsAs s b vb → ReadsAs s c vc → vc ≠ 0 →
      ∃ r q : Nat, r < vc.toNat ∧ vb.toNat = q * vc.toNat + r ∧
        exec (.mod a b c) s = .next { s with regs := s.regs.set d (BitVec.ofNat 15 r), pc := s.pc + 4 }) ∧
    (∀ w, b = .invalid w → Raises (exec (.mod a b c) s) s (.invalidAddressingMode w)) ∧
    (∀ vb w, ReadsAs s b vb → c = .invalid w → Raises (exec (.mod a b c) s) s (.invalidAddressingMode w)) ∧
    (∀ vb, ReadsAs s b vb → ReadsAs s c 0 → Raises (exec (.mod a b c) s) s .divideByZero) ∧
    (∀ vb vc, ReadsAs s b vb → ReadsAs s c vc → vc ≠ 0 → NotRegister a →
      Raises (exec (.mod a b c) s) s (.invalidWriteTarget a.toCell)) ∧
    encode (.mod a b c) = [11, a.toCell, b.toCell, c.toCell]

/-- `and a b c` and `or a b c` (44_alu.md R144, R145). -/
def Obligations.AndAndOrAreBitwise : Prop :=
  (ThreeOperands .and 12 fun vb vc => vb.toNat &&& vc.toNat) ∧
  ThreeOperands .or 13 fun vb vc => vb.toNat ||| vc.toNat

/-- `not a b` (44_alu.md R146). -/
def Obligations.NotIsTheFifteenBitComplement : Prop := TwoOperands .not 14 fun vb => 32767 - vb.toNat

/-- `rmem a b` (45_load_store.md R160): the cell's value reduced modulo 32768. The out-of-range fault is the spec's
own decision D28 (log entry 5). -/
def Obligations.RmemLoadsACell : Prop :=
  ∀ (s : State) (a b : Operand),
    (∀ d addr, a = .reg d → ReadsAs s b addr → addr.toNat < s.memSize →
      exec (.rmem a b) s =
        .next { s with
          regs := s.regs.set d (BitVec.ofNat 15 ((s.readCell addr.toNat).toNat % 32768)), pc := s.pc + 3 }) ∧
    (∀ w, b = .invalid w → Raises (exec (.rmem a b) s) s (.invalidAddressingMode w)) ∧
    (∀ addr, ReadsAs s b addr → s.memSize ≤ addr.toNat →
      Raises (exec (.rmem a b) s) s (.memoryAddressOutOfRange addr.toNat)) ∧
    (∀ addr, ReadsAs s b addr → addr.toNat < s.memSize → NotRegister a →
      Raises (exec (.rmem a b) s) s (.invalidWriteTarget a.toCell)) ∧
    encode (.rmem a b) = [15, a.toCell, b.toCell]

/-- `wmem a b` (45_load_store.md R161): the cell named by the first operand holds the value, bit 15 clear; every other
cell reads as before; the memory keeps its canonical form. The out-of-range fault is the spec's own decision D28 (log
entry 5); the form of memory is log entry 6. -/
def Obligations.WmemStoresAWord : Prop :=
  ∀ (s : State) (a b : Operand),
    (∀ addr v, ReadsAs s a addr → ReadsAs s b v → addr.toNat < s.memSize →
      ∃ m : Memory, exec (.wmem a b) s = .next { s with mem := m, pc := s.pc + 3 } ∧
        m.read addr.toNat = v.setWidth 16 ∧ (∀ x, x ≠ addr.toNat → m.read x = s.mem.read x) ∧
        (s.mem.wf → m.wf)) ∧
    (∀ w, a = .invalid w → Raises (exec (.wmem a b) s) s (.invalidAddressingMode w)) ∧
    (∀ addr w, ReadsAs s a addr → b = .invalid w → Raises (exec (.wmem a b) s) s (.invalidAddressingMode w)) ∧
    (∀ addr v, ReadsAs s a addr → ReadsAs s b v → s.memSize ≤ addr.toNat →
      Raises (exec (.wmem a b) s) s (.memoryAddressOutOfRange addr.toNat)) ∧
    encode (.wmem a b) = [16, a.toCell, b.toCell]

/-- `call a` (43_control_transfer.md R124): pushes pc + 2, not reduced. The unreduced push is the spec's decision D7.
-/
def Obligations.CallPushesTheNextAddress : Prop :=
  ∀ (s : State) (a : Operand),
    (∀ t, ReadsAs s a t →
      exec (.call a) s = .next (jumped { s with stack := (s.pc + 2) :: s.stack } (t.setWidth 16))) ∧
    (∀ w, a = .invalid w → Raises (exec (.call a) s) s (.invalidAddressingMode w)) ∧
    encode (.call a) = [17, a.toCell]

/-- `ret` (43_control_transfer.md R125): the element becomes pc as it is; behind an element that is no address the next
iteration is the halt OFF_END. -/
def Obligations.RetGoesToTheTop : Prop :=
  (∀ (s : State) v rest, s.stack = v :: rest → exec .ret s = .next (jumped { s with stack := rest } v)) ∧
  (∀ s : State, s.stack = [] → Raises (exec .ret s) s .stackUnderflow) ∧
  encode .ret = [18] ∧
  ∀ (s : State) v rest, s.stack = v :: rest → s.run = .running → s.memSize ≤ v.toNat →
    ∃ t, exec .ret s = .next t ∧ step t = .next { t with run := .halted .offEnd }

/-- `out a` (46_io.md R170): exactly one code, at the end of the output stream. -/
def Obligations.OutEmitsOneCharacter : Prop :=
  ∀ (s : State) (a : Operand),
    (∀ c, ReadsAs s a c → exec (.out a) s = .next { s with outs := s.outs ++ [c], pc := s.pc + 2 }) ∧
    (∀ w, a = .invalid w → Raises (exec (.out a) s) s (.invalidAddressingMode w)) ∧
    encode (.out a) = [19, a.toCell]

/-- `in a` with the input channel and its escape hook (46_io.md R172, R173, R175): the delivered character reaches the
destination, reduced modulo 32768; the destination is checked after the character was taken; without input the core
holds at the instruction; one of these cases always applies. The order is the spec's decision D10, the hook D16; the
hold as a next state is the model's (log entry 8). -/
def Obligations.InReadsOneCharacter : Prop :=
  ∀ (s : State) (a : Operand),
    (∀ d ch u, a = .reg d → Delivers s ch u →
      exec (.inp a) s = .next { u with regs := u.regs.set d (BitVec.ofNat 15 (ch % 32768)), pc := s.pc + 2 }) ∧
    (∀ ch u, Delivers s ch u → NotRegister a → Raises (exec (.inp a) s) s (.invalidWriteTarget a.toCell)) ∧
    (∀ m, NoInput s m →
      exec (.inp a) s = .next { s with inbuf := [], regs := regsAfterEscapes s m, hold := .input }) ∧
    ((∃ ch u, Delivers s ch u) ∨ ∃ m, NoInput s m) ∧
    encode (.inp a) = [20, a.toCell]

/-! ### Frames -/

/-- The frame of set, eq, gt, add, mult, mod, and, or, not, rmem when they do not fault: only the destination register
and pc change; every cell of memory reads as before. -/
def Obligations.RegisterWriteFrame : Prop :=
  ∀ (i : Instr) (a : Operand) (s t : State), destOf i = some a → exec i s = .next t → t.isFaulted = false →
    (∀ r : RegIndex, a ≠ .reg r → t.regs[r] = s.regs[r]) ∧ (∀ x, t.readCell x = s.readCell x) ∧
    t = { s with regs := t.regs, pc := t.pc }

/-- The frame of push, pop, call, ret when they do not fault: `push` and `call` put one element on the old stack, `pop` and
`ret` take one off it; beside that only the destination register of `pop`, pc, and the jump-destination set of `call`
and `ret` change. -/
def Obligations.StackFrame : Prop :=
  ∀ (s t : State) (a : Operand), t.isFaulted = false →
    (exec (.push a) s = .next t → (∃ v, t.stack = v :: s.stack) ∧ t = { s with stack := t.stack, pc := t.pc }) ∧
    (exec (.pop a) s = .next t →
      (∃ v, s.stack = v :: t.stack) ∧ (∀ r : RegIndex, a ≠ .reg r → t.regs[r] = s.regs[r]) ∧
      t = { s with stack := t.stack, regs := t.regs, pc := t.pc }) ∧
    (exec (.call a) s = .next t →
      (∃ v, t.stack = v :: s.stack) ∧ t = { s with stack := t.stack, pc := t.pc, jdest := t.jdest }) ∧
    (exec .ret s = .next t →
      (∃ v, s.stack = v :: t.stack) ∧ t = { s with stack := t.stack, pc := t.pc, jdest := t.jdest }) ∧
    (exec (.push a) s = .next t ∨ exec (.pop a) s = .next t ∨ exec (.call a) s = .next t ∨ exec .ret s = .next t →
      ∀ x, t.readCell x = s.readCell x)

/-- The frame of wmem when it does not fault: every cell but the one named by the first operand reads as before;
registers, stack, I/O and all else are unchanged but pc. -/
def Obligations.StoreFrame : Prop :=
  ∀ (s t : State) (a b : Operand), exec (.wmem a b) s = .next t → t.isFaulted = false →
    (∀ addr, resolveRead a s = .ok addr → ∀ x, x ≠ addr.toNat → t.readCell x = s.readCell x) ∧
    t = { s with mem := t.mem, pc := t.pc }

/-- The frame of halt, jmp, jt, jf, noop when they do not fault: `halt` changes the run state only, `noop` pc only, the
jumps pc and the jump-destination set, which a disabled layer does not keep; no cell of memory changes. -/
def Obligations.ControlFrame : Prop :=
  ∀ (s t : State) (a b : Operand), t.isFaulted = false →
    (exec .halt s = .next t → t = { s with run := t.run }) ∧
    (exec .noop s = .next t → t = { s with pc := t.pc }) ∧
    (exec (.jmp a) s = .next t ∨ exec (.jt a b) s = .next t ∨ exec (.jf a b) s = .next t →
      t = { s with pc := t.pc, jdest := t.jdest } ∧ (s.params.debugEnable = false → t.jdest = s.jdest)) ∧
    (exec .halt s = .next t ∨ exec .noop s = .next t ∨ exec (.jmp a) s = .next t ∨ exec (.jt a b) s = .next t ∨
      exec (.jf a b) s = .next t → ∀ x, t.readCell x = s.readCell x)

/-- The frame of out and in when they do not fault: `out` changes the output stream and pc; `in` its destination
register, the last register when the escape hook is enabled, the input channel, pc and whether the core waits. -/
def Obligations.InputOutputFrame : Prop :=
  ∀ (s t : State) (a : Operand), t.isFaulted = false →
    (exec (.out a) s = .next t → t = { s with outs := t.outs, pc := t.pc }) ∧
    (exec (.inp a) s = .next t →
      t = { s with regs := t.regs, inbuf := t.inbuf, hostLines := t.hostLines, pc := t.pc, hold := t.hold } ∧
      ∀ r : RegIndex, a ≠ .reg r → (s.params.escapeEnable = false ∨ r ≠ 7) → t.regs[r] = s.regs[r]) ∧
    (exec (.out a) s = .next t ∨ exec (.inp a) s = .next t → ∀ x, t.readCell x = s.readCell x)

/-! ### Operands and faults -/

/-- The read path (40_execution_loop.md R88), on raw operand words. -/
def Obligations.ReadPathResolves : Prop :=
  ∀ (s : State) (v : Cell),
    (v.toNat < 32768 → ∃ w, resolveRead (.ofCell v) s = .ok w ∧ w.toNat = v.toNat) ∧
    (∀ i : RegIndex, v.toNat = 32768 + i.val → resolveRead (.ofCell v) s = .ok s.regs[i]) ∧
    (32776 ≤ v.toNat → resolveRead (.ofCell v) s = .error (.invalidAddressingMode v))

/-- The write path (40_execution_loop.md R89), on raw operand words: the register named gets the value modulo 32768, no
other register and nothing else changes; any other word is a fault. -/
def Obligations.WritePathReduces : Prop :=
  ∀ (s : State) (v : Cell) (val : Nat),
    (∀ i : RegIndex, v.toNat = 32768 + i.val →
      ∃ t, resolveWrite (.ofCell v) val s = .ok t ∧ (t.regs[i]).toNat = val % 32768 ∧
        (∀ j : RegIndex, j ≠ i → t.regs[j] = s.regs[j]) ∧ t = { s with regs := t.regs }) ∧
    (v.toNat < 32768 ∨ 32776 ≤ v.toNat → resolveWrite (.ofCell v) val s = .error (.invalidWriteTarget v))

/-- A fault of a handler is precise (60_exceptions.md R230): the record names the instruction that faulted, pc stays
there, and no character was emitted. A fault as a next state, and the pc kept, are the model's reading (log entries 1,
22). -/
def Obligations.FaultsArePrecise : Prop :=
  ∀ (i : Instr) (s t : State), s.isFaulted = false → exec i s = .next t → t.isFaulted = true →
    ∃ f, t.run = .faulted ⟨f, s.pc⟩ ∧ t.pc = s.pc ∧ t.outs = s.outs

/-- What each fault of a handler comes from (60_exceptions.md section 1), and the code and name of each of the eight faults
(R220, which the fault record of 10_state.md R23 holds): a code and a name identify the same fault. DivideByZero and
MemoryAddressOutOfRange are the spec's own decisions D11 and D28, the codes its decision D13. -/
def Obligations.FaultsHaveTheirCauses : Prop :=
  (∀ (i : Instr) (s t : State) (f : FaultInfo) (p : Cell), s.isFaulted = false → exec i s = .next t →
    t.run = .faulted ⟨f, p⟩ →
    match f with
    | .unknownOpcode _ => False
    | .truncatedInstruction _ => False
    | .selfModifyingCodeDetected _ _ _ => False
    | .invalidAddressingMode c => Operand.invalid c ∈ sourcesOf i
    | .invalidWriteTarget c => ∃ a, (destOf i = some a ∨ i = .pop a ∨ i = .inp a) ∧ NotRegister a ∧ c = a.toCell
    | .stackUnderflow => s.stack = [] ∧ (i = .ret ∨ ∃ a, i = .pop a)
    | .divideByZero => ∃ a b c, i = .mod a b c ∧ ReadsAs s c 0
    | .memoryAddressOutOfRange x => s.memSize ≤ x ∧ ∃ a b, i = .rmem a b ∨ i = .wmem a b) ∧
  (∀ f : FaultInfo, (f.code, f.name) = match f with
    | .unknownOpcode _ => (1, "UnknownOpcode")
    | .truncatedInstruction _ => (2, "TruncatedInstruction")
    | .invalidAddressingMode _ => (3, "InvalidAddressingMode")
    | .invalidWriteTarget _ => (4, "InvalidWriteTarget")
    | .stackUnderflow => (5, "StackUnderflow")
    | .selfModifyingCodeDetected _ _ _ => (6, "SelfModifyingCodeDetected")
    | .divideByZero => (7, "DivideByZero")
    | .memoryAddressOutOfRange _ => (8, "MemoryAddressOutOfRange")) ∧
  ∀ f g : FaultInfo, f.code = g.code ↔ f.name = g.name

/-! ### Encoding -/

/-- The three classes of operand words (30_encoding.md R63): which words are literals, register references and invalid,
and that each operand word is recovered from its class. -/
def Obligations.OperandClasses : Prop :=
  ∀ v : Cell,
    (v.toNat < 32768 → ∃ w : Word, Operand.ofCell v = .lit w ∧ w.toNat = v.toNat) ∧
    (32768 ≤ v.toNat → v.toNat < 32776 → ∃ i : RegIndex, Operand.ofCell v = .reg i ∧ 32768 + i.val = v.toNat) ∧
    (32776 ≤ v.toNat → Operand.ofCell v = .invalid v) ∧
    (Operand.ofCell v).toCell = v

/-- Every opcode word from 22 to 65535 is unknown, no opcode word from 0 to 21 is, and fetching an unknown one raises
UnknownOpcode (30_encoding.md R66). -/
def Obligations.OnlyTwentyTwoOpcodes : Prop :=
  (∀ (w : Cell) (rest : List Cell), decode (w :: rest) = .error (.unknownOpcode w) ↔ 22 ≤ w.toNat) ∧
  ∀ s : State, s.run = .running → s.pc.toNat < s.memSize → 22 ≤ (s.readCell s.pc.toNat).toNat →
    ∃ words, Raises (step s) s (.unknownOpcode words)

/-- Decoding an encoded well-formed instruction gives it back, with the words behind it untouched. -/
def Obligations.DecodeOfEncode : Prop :=
  ∀ (i : Instr) (rest : List Cell), i.wellFormed = true → decode (encode i ++ rest) = .ok (i, rest)

/-- Each instruction's words have one meaning: what decodes is well formed and is its own encoding. -/
def Obligations.EncodeOfDecode : Prop :=
  ∀ (ws rest : List Cell) (i : Instr), decode ws = .ok (i, rest) → i.wellFormed = true ∧ ws = encode i ++ rest

/-- Words written out from the opcode map decode to the instructions they stand for, one of each family. -/
def Obligations.SampleWordsDecode : Prop :=
  decode [1, 32769, 5] = .ok (.set (.reg 1) (.lit 5), []) ∧
  decode [4, 32768, 5, 5] = .ok (.eq (.reg 0) (.lit 5) (.lit 5), []) ∧
  decode [7, 32769, 6] = .ok (.jt (.reg 1) (.lit 6), []) ∧
  decode [9, 32768, 4, 6, 19] = .ok (.add (.reg 0) (.lit 4) (.lit 6), [19]) ∧
  decode [16, 21, 32775] = .ok (.wmem (.lit 21) (.reg 7), []) ∧
  decode [20, 32776] = .ok (.inp (.invalid 32776), []) ∧
  decode [32768] = .error (.unknownOpcode 32768)

/-! ### The loop -/

/-- A step runs the decoded instruction. With the layer disabled, and not resuming a wait, it is `exec` at that state.
In general stage 5 (40_execution_loop.md R80, R85) says whether the handler runs now, and in which state. The waits in
between are the model's (log entry 8). -/
def Obligations.StepRunsTheDecodedInstruction : Prop :=
  ∀ (s : State) (i : Instr), AtInstr s i →
    (s.params.debugEnable = false → s.hold = .none → step s = exec i s) ∧
    (∀ t, stage5 i s = .proceed t → step s = exec i t) ∧
    (∀ t, stage5 i s = .held t → step s = .next t) ∧
    (∀ t, stage5 i s = .stopped t → step s = .next t)

/-- Stage 1 (40_execution_loop.md R81): pc at or beyond MEM_SIZE is the clean halt OFF_END, with nothing else changed.
The place of the test is the spec's decision D9. -/
def Obligations.OffTheEndIsACleanHalt : Prop :=
  ∀ s : State, s.run = .running → s.memSize ≤ s.pc.toNat → step s = .next { s with run := .halted .offEnd }

/-- UnknownOpcode (60_exceptions.md R221): raised when the cell at pc is above 21; the info is the cells from pc to pc
+ 4, cut short at the last cell of memory. The cut is the spec's decision D22. -/
def Obligations.UnknownOpcodeIsReported : Prop :=
  ∀ s : State, s.run = .running → s.pc.toNat < s.memSize → 22 ≤ (s.readCell s.pc.toNat).toNat →
    Raises (step s) s (.unknownOpcode
      ((List.range (min 5 (s.memSize - s.pc.toNat))).map fun k => s.readCell (s.pc.toNat + k)))

/-- TruncatedInstruction (60_exceptions.md R222): raised when an opcode's last operand word would lie beyond the last
cell, with the opcode word as its info; an instruction that ends in the last cell is fetched. The boundary is the
spec's decision D8. -/
def Obligations.TruncatedInstructionIsReported : Prop :=
  ∀ (s : State) (i : Instr) (x y z : Operand), s.run = .running → s.pc.toNat < s.memSize →
    Instr.ofOpcode (s.readCell s.pc.toNat).toNat x y z = some i →
    (s.memSize ≤ s.pc.toNat + i.arity →
      Raises (step s) s (.truncatedInstruction (s.readCell s.pc.toNat))) ∧
    (s.pc.toNat + i.arity < s.memSize → ∃ j, AtInstr s j ∧ j.opcode = i.opcode)

/-- Only a RUNNING core steps (10_state.md R22): HALTED and FAULTED are final, and a RUNNING core always has a next
state, which no refusal takes away. What a step of a HALTED or FAULTED core answers is the model's choice (log entries
9, 1); so is that a RUNNING core which waits has a next state (log entry 8), where R22 and R93 speak of RUNNING with no
enabled step. -/
def Obligations.FinalStatesAreFinal : Prop :=
  (∀ (s : State) h, s.run = .halted h → step s = .next s) ∧
  (∀ (s : State) r, s.run = .faulted r → step s = .fault (.faulted r)) ∧
  (∀ s : State, s.run = .running → ∃ t, step s = .next t)

/-- "the only way to end the loop is `halt`, running off the end of memory, or a fault" (40_execution_loop.md R93). -/
def Obligations.TheLoopEndsInThreeWays : Prop :=
  ∀ s t : State, s.run = .running → step s = .next t → t.run ≠ .running →
    (t.run = .halted .explicit ∧ AtInstr s .halt) ∨
    (t.run = .halted .offEnd ∧ s.memSize ≤ s.pc.toNat) ∨
    t.isFaulted = true

/-- Each storage has its own mutators (20_memory.md R42, R54; 10_state.md R18, R21): a step that does not fault changes a
cell only by `wmem`, which leaves bit 15 clear, and the stack only by push, pop, call and ret. -/
def Obligations.StoragesHaveTheirOwnMutators : Prop :=
  ∀ s t : State, s.run = .running → step s = .next t → t.isFaulted = false →
    (∀ x, t.readCell x ≠ s.readCell x → (∃ a b, AtInstr s (.wmem a b)) ∧ (t.readCell x).toNat < 32768) ∧
    (t.stack ≠ s.stack →
      AtInstr s .ret ∨ ∃ a, AtInstr s (.push a) ∨ AtInstr s (.pop a) ∨ AtInstr s (.call a))

/-- The output stream "only grows" (10_state.md R25), by at most one code a step and only by `out`; no step changes the
parameters of the run (10_state.md R29). -/
def Obligations.OutputOnlyGrows : Prop :=
  ∀ s t : State, step s = .next t →
    t.params = s.params ∧
    (t.outs = s.outs ∨ ∃ c, t.outs = s.outs ++ [c] ∧ ∃ a, AtInstr s (.out a) ∧ t.isFaulted = false)

/-! ### Invariants -/

/-- The invariant holds at reset. -/
def Obligations.ResetMeetsTheInvariant : Prop := Kept State.reset

/-- Every step keeps the invariant: memory canonical and inside MEM_SIZE, stack elements and pc at most 32768, the
cache one slot per address, the jump destinations an ordered set. The canonical forms are the model's (log entries 2,
6, 13). -/
def Obligations.StepKeepsTheInvariant : Prop := ∀ s t : State, Kept s → step s = .next t → Kept t

/-- A launch meets the invariant. -/
def Obligations.LaunchMeetsTheInvariant : Prop :=
  ∀ p image patches lines commands t, launch p image patches lines commands = .next t → Kept t

/-- The memory's form is canonical: two memories in it that read alike everywhere are equal. The form is the model's
(log entry 6). -/
def Obligations.MemoriesThatReadAlikeAreEqual : Prop :=
  ∀ m n : Memory, m.wf → n.wf → (∀ a, m.read a = n.read a) → m = n

/-! ### Laws of arithmetic and calls -/

/-- The laws of 44_alu.md R147, on what the instructions leave: add and mult are commutative and associative, not is its
own inverse, and mod is the mathematical remainder, which is below the divisor. -/
def Obligations.ArithmeticLaws : Prop :=
  ∀ (s : State) (d : RegIndex) (x y z : Word),
    exec (.add (.reg d) (.lit x) (.lit y)) s = exec (.add (.reg d) (.lit y) (.lit x)) s ∧
    exec (.mult (.reg d) (.lit x) (.lit y)) s = exec (.mult (.reg d) (.lit y) (.lit x)) s ∧
    (∃ t u t' u', exec (.add (.reg d) (.lit x) (.lit y)) s = .next t ∧
      exec (.add (.reg d) (.reg d) (.lit z)) t = .next u ∧ exec (.add (.reg d) (.lit y) (.lit z)) s = .next t' ∧
      exec (.add (.reg d) (.lit x) (.reg d)) t' = .next u' ∧ u = u') ∧
    (∃ t u t' u', exec (.mult (.reg d) (.lit x) (.lit y)) s = .next t ∧
      exec (.mult (.reg d) (.reg d) (.lit z)) t = .next u ∧ exec (.mult (.reg d) (.lit y) (.lit z)) s = .next t' ∧
      exec (.mult (.reg d) (.lit x) (.reg d)) t' = .next u' ∧ u = u') ∧
    (∃ t u, exec (.not (.reg d) (.lit x)) s = .next t ∧ exec (.not (.reg d) (.reg d)) t = .next u ∧
      u.regs[d] = x ∧ (t.regs[d]).toNat = 32767 - x.toNat) ∧
    (z ≠ 0 → ∃ t, exec (.mod (.reg d) (.lit x) (.lit z)) s = .next t ∧
      ∃ q : Nat, x.toNat = q * z.toNat + (t.regs[d]).toNat ∧ (t.regs[d]).toNat < z.toNat)

/-- `call` then `ret` with an untouched stack returns to the instruction after the `call` (43_control_transfer.md R127), from
any state the subroutine ends in. -/
def Obligations.RetReturnsBehindTheCall : Prop :=
  ∀ (s t u : State) (a : Operand), exec (.call a) s = .next t → t.isFaulted = false → u.stack = t.stack →
    ∃ w, exec .ret u = .next w ∧ w.pc = s.pc + 2 ∧ w.stack = s.stack

/-! ### The input channel's wait -/

/-- The one blocking point (46_io.md R174): a core that waits in `in` stays as it is, RUNNING, while there is no line;
when the host delivers one, the same instruction completes. The hold field and the line queue are the model's (log
entries 7, 8); the endless wait is the spec's decision D15. -/
def Obligations.InWaitsForALine : Prop :=
  ∀ (s : State) (a : Operand), AtInstr s (.inp a) → s.hold = .input → s.inbuf = [] →
    (s.hostLines = [] → step s = .next s) ∧
    (∀ line lines ch u d, s.hostLines = line :: lines → a = .reg d → Delivers s ch u →
      step s = .next { u with
        regs := u.regs.set d (BitVec.ofNat 15 (ch % 32768)), pc := s.pc + 2, hold := .none })

/-! ### The instrumentation layer and the debugger -/

/-- With the layer disabled (47_disassembly_cache.md R190) a step changes none of its state, gives no command a
hearing and raises no SelfModifyingCodeDetected. That the state exists then at all is the model's (log entry 15). -/
def Obligations.DisabledLayerDoesNothing : Prop :=
  ∀ s t : State, s.run = .running → s.params.debugEnable = false → step s = .next t →
    (t.isFaulted = false →
      t.dcache = s.dcache ∧ t.jdest = s.jdest ∧ t.watch = s.watch ∧ t.stepMode = s.stepMode ∧
      t.stepSkip = s.stepSkip ∧ t.trace = s.trace ∧ t.commands = s.commands) ∧
    ∀ a x y p, t.run ≠ .faulted ⟨.selfModifyingCodeDetected a x y, p⟩

/-- The self-modification check (47_disassembly_cache.md R194) and the update of the cache (R195). With the check on,
a slot that holds another rendering is the fault, with the address, the cached text and the new text, before the
instruction executes. In every other case, a different rendering with the check off among them, the iteration goes on,
to the handler or to a hold, with the new rendering in the slot. The slot keeps the instruction in place of its text,
as R196 allows (log entry 13). -/
def Obligations.ChangedCodeIsDetected : Prop :=
  ∀ (s : State) (i : Instr), AtInstr s i → s.params.debugEnable = true → s.hold = .none →
    (∀ old, s.params.smcCheckEnable = true → slotAt s.dcache s.pc.toNat = some old → render old ≠ render i →
      Raises (step s) s (.selfModifyingCodeDetected s.pc.toNat (render old) (render i))) ∧
    (s.params.smcCheckEnable = false ∨ slotAt s.dcache s.pc.toNat = none ∨
        (∃ old, slotAt s.dcache s.pc.toNat = some old ∧ old.wellFormed = true ∧ render old = render i) →
      ∃ t, (stage5 i s = .proceed t ∨ stage5 i s = .held t) ∧
        (slotAt t.dcache s.pc.toNat).map render = some (render i))

/-- The cache is keyed by the address of the opcode word alone (47_disassembly_cache.md R195, R201, R202): after a step that
does not fault, the slot of the fetched address holds what was fetched there, and no other slot has changed. -/
def Obligations.CacheHoldsTheLastFetched : Prop :=
  ∀ (s t : State) (i : Instr), AtInstr s i → s.params.debugEnable = true → s.hold = .none → step s = .next t →
    t.isFaulted = false →
    slotAt t.dcache s.pc.toNat = some i ∧ ∀ x, x ≠ s.pc.toNat → slotAt t.dcache x = slotAt s.dcache x

/-- The jump-destination set (47_disassembly_cache.md R197): with the layer enabled, an instruction that jumps adds
the pc it leaves, one that does not jump adds nothing, and nothing leaves the set. That only an enabled layer keeps
the set is the spec's decision D24. -/
def Obligations.JumpDestinationsAreRecorded : Prop :=
  ∀ (i : Instr) (s t : State), s.params.debugEnable = true → exec i s = .next t → t.isFaulted = false →
    (Jumps s i → ∀ x, x ∈ t.jdest ↔ x = t.pc.toNat ∨ x ∈ s.jdest) ∧
    (¬Jumps s i → t.jdest = s.jdest)

/-- The watchpoint (47_disassembly_cache.md R198): when an operand word names a watched register, the whole set is
emptied, single-step mode is engaged, the count is cancelled, and the operator is prompted before the instruction
executes; when none does, nothing of that happens. The cancelled count is the spec's decision D27. -/
def Obligations.WatchpointFires : Prop :=
  ∀ (s : State) (i : Instr), AtInstr s i → s.params.debugEnable = true → s.hold = .none → Unmodified s i →
    (NamesWatched s i → s.commands = [] →
      step s = .next { cached s i with
        watch := Vector.replicate 8 false, stepMode := true, stepSkip := 0, hold := .operator }) ∧
    (∀ k, NamesWatched s i → s.commands = [.n (k + 1)] →
      step s = exec i { cached s i with
        watch := Vector.replicate 8 false, stepMode := true, stepSkip := k, commands := [] }) ∧
    (¬NamesWatched s i → s.stepMode = false → step s = exec i { cached s i with stepSkip := s.stepSkip - 1 })

/-- The operator point (60_exceptions.md R239): no prompt outside single-step mode or while a count runs; otherwise
the commands are taken one at a time until an `n` of 1 or more, and the core holds when they run out first. While it
holds and no command comes, nothing changes. The operator point is the spec's decision D27; the command queue is the
model's (log entry 7). -/
def Obligations.OperatorPointPrompts : Prop :=
  ∀ s : State,
    (s.stepMode = false ∨ s.stepSkip ≠ 0 →
      operatorPoint s = .proceed { s with stepSkip := s.stepSkip - 1, hold := .none }) ∧
    (∀ before k after, s.stepMode = true → s.stepSkip = 0 → (∀ j, .n (j + 1) ∉ before) →
      s.commands = before ++ .n (k + 1) :: after →
      operatorPoint s = .proceed { before.foldl (fun t c => runCommand c t) s with
        commands := after, stepSkip := k, hold := .none }) ∧
    (s.stepMode = true → s.stepSkip = 0 → (∀ j, .n (j + 1) ∉ s.commands) →
      operatorPoint s = .held { s.commands.foldl (fun t c => runCommand c t) s with
        commands := [], hold := .operator }) ∧
    (∀ i, AtInstr s i → s.params.debugEnable = true → s.hold = .operator → s.stepMode = true → s.stepSkip = 0 →
      s.commands = [] → step s = .next s)

/-- What the commands do (60_exceptions.md R241, R242, R243, R246; also R240, R244, R245, R247): `rs` writes one
register modulo 32768, `d` toggles the trace, `n` sets the count, `w` replaces the watch set; the others, and a
command with a register outside 0 to 7, change no state; `r` shows the registers and `dis` the export. Registers by
index are the spec's decision D21 (log entry 21). -/
def Obligations.CommandsDoWhatTheySay : Prop :=
  ∀ s : State,
    (∀ c ∈ [Command.help, .r, .dis, .malformed], runCommand c s = s) ∧
    (∀ (i : RegIndex) (v : Nat),
      runCommand (.rs i v) s = { s with regs := s.regs.set i (BitVec.ofNat 15 (v % 32768)) }) ∧
    (∀ i v, 8 ≤ i → runCommand (.rs i v) s = s) ∧
    runCommand .d s = { s with trace := !s.trace } ∧
    (∀ count, runCommand (.n count) s = { s with stepSkip := count }) ∧
    (∀ rs, (∀ r ∈ rs, r < 8) →
      ∃ w : Vector Bool 8, runCommand (.w rs) s = { s with watch := w } ∧
        ∀ r : RegIndex, w[r] = true ↔ r.val ∈ rs) ∧
    (∀ rs, (∃ r ∈ rs, 8 ≤ r) → runCommand (.w rs) s = s) ∧
    shown .r s = .registers s.regs ∧ shown .dis s = .listing (exportLines s)

/-- The rendering tells instructions apart (47_disassembly_cache.md R196), so that keeping the instruction in a slot
is keeping its text. R196 is the spec's own inference. What the text is, RenderingIsTheCanonicalText says. -/
def Obligations.RenderingIsInjective : Prop :=
  ∀ i j : Instr, i.wellFormed = true → j.wellFormed = true → render i = render j → i = j

/-- The export (47_disassembly_cache.md R199): the spec's loop over all addresses, ascending, gives the lines. The
decimal addresses are the spec's decision D19. -/
def Obligations.ExportListsTheCache : Prop :=
  ∀ s : State, Kept s →
    exportLines s = (List.range s.memSize).flatMap fun addr =>
      match slotAt s.dcache addr with
      | none => []
      | some i => (if addr ∈ s.jdest then [""] else []) ++ [Nat.repr addr ++ "| " ++ render i]

/-- The layer observes and never alters execution (47_disassembly_cache.md R200), for one step: a core with the layer
and the same core without it agree after it, or the one with the layer waits for the operator with its core unchanged,
as long as the operator gives no `rs` and the fetched instruction is unchanged or the check is off. The sentence is
the spec's own inference in R200. -/
def Obligations.LayerNeverAltersAStep : Prop :=
  ∀ s t : State, s.run = .running → s.params.debugEnable = false → t.params.debugEnable = true → SameCore s t →
    (∀ r v, Command.rs r v ∉ t.commands) → (∀ i, AtInstr t i → Unmodified t i) →
    ∃ s' t', step s = .next s' ∧ step t = .next t' ∧ ((t'.hold = .operator ∧ SameCore s t') ∨ Agree s' t')

/-- The same over runs of any length, with the check off, single-step mode off and nothing watched: the run with the
layer and the run without it agree at every instruction boundary (47_disassembly_cache.md R200). The sentence is the
spec's own inference in R200. -/
def Obligations.LayerNeverAltersARun : Prop :=
  ∀ (k : Nat) (s t : State), s.params.debugEnable = false → t.params.debugEnable = true →
    t.params.smcCheckEnable = false → t.stepMode = false → t.watch = Vector.replicate 8 false → SameCore s t →
    s.isFaulted = false →
    OutcomesAgree (Sys2Proof.core.run k s) (Sys2Proof.core.run k t)

/-! ### Reset and launch -/

/-- The state at the start of a run (10_state.md R31), of `State.reset` and of every launch: registers and pc 0,
stack, input buffer, output stream, cache, jump destinations and watch set empty, RUNNING, the count 0, the trace off,
`step_mode` as STEP_MODE_RESET says. The values are the spec's decisions D5, D6, D15 and D20 (log entry 3). -/
def Obligations.StartStateIsAsStated : Prop :=
  ∀ s : State,
    (s = State.reset ∨ ∃ p image patches lines commands, launch p image patches lines commands = .next s) →
    (∀ i : RegIndex, s.regs[i] = 0) ∧ s.pc = 0 ∧ s.stack = [] ∧ s.run = .running ∧ s.inbuf = [] ∧ s.outs = [] ∧
    (∀ a, slotAt s.dcache a = none) ∧ s.jdest = [] ∧ (∀ i : RegIndex, s.watch[i] = false) ∧
    s.stepMode = s.params.stepModeReset ∧ s.stepSkip = 0 ∧ s.trace = false

/-- Program load (70_reset_and_hazards.md R261): word k is byte 2k and, as its high half, byte 2k + 1; the cells
behind the image are 0; an image of odd length, or of more than MEM_SIZE words, is no run. The zero fill and the
refusals are the spec's decisions D3 and D4 (log entries 6, 11). -/
def Obligations.ImageLoadsLittleEndian : Prop :=
  ∀ (p : Params) (image : List (BitVec 8)) (lines : List (List Nat)) (commands : List Command),
    (image.length % 2 = 0 → image.length / 2 ≤ p.memSize →
      ∃ t, launch p image [] lines commands = .next t ∧
        (∀ k, 2 * k + 1 < image.length →
          (t.readCell k).toNat = (image.getD (2 * k) 0).toNat + 256 * (image.getD (2 * k + 1) 0).toNat) ∧
        ∀ k, image.length ≤ 2 * k → t.readCell k = 0) ∧
    (image.length % 2 = 1 → launch p image [] lines commands = .refused .oddLengthImage) ∧
    (image.length % 2 = 0 → p.memSize < image.length / 2 →
      launch p image [] lines commands = .refused .imageTooLong)

/-- The patch facility (70_reset_and_hazards.md R262): a patch behind the others overwrites its cell with its value,
whatever they did, and changes nothing else of the launched state. The order is the spec's decision D4. -/
def Obligations.PatchesOverwriteInOrder : Prop :=
  ∀ p image patches lines commands t a v, launch p image patches lines commands = .next t → a < p.memSize →
    ∃ u, launch p image (patches ++ [(a, v)]) lines commands = .next u ∧ u.readCell a = v ∧
      (∀ x, x ≠ a → u.readCell x = t.readCell x) ∧ u = { t with mem := u.mem }

/-! ### The text of an instruction -/

/-- The canonical text form (47_disassembly_cache.md R192, R193; 30_encoding.md R72), on the raw words: the mnemonic of the
opcode, then one space and the operand's text for each operand word, `r1` to `r8` for the register references, the plain
decimal for every other word, an invalid one too. The single space, the lower case and the decimal of an invalid word
are the spec's decision D19. -/
def Obligations.RenderingIsTheCanonicalText : Prop :=
  ∀ (w0 : Cell) (ops : List Cell) (i : Instr), decode (w0 :: ops) = .ok (i, []) →
    mnemonics[w0.toNat]? = some (mnemonicOf i) ∧
    render i = mnemonicOf i ++ String.join (ops.map fun v => " " ++ operandText v)
end

