-- ==== Sys2Proof/Laws/PerInstr.lean ====
section
/-! SUPPORT. Facts about every instruction as syntax, one lemma for each constructor. -/

namespace Sys2Proof.Laws.Registry

/-- The opcode map and the operand list belong together: the opcode is 0 to 21, the arity at most 3, and the opcode
with the instruction's own operands gives the instruction back (30_encoding.md R60, R65). -/
def Statement (i : Instr) : Prop :=
  i.opcode ≤ 21 ∧ i.arity ≤ 3 ∧
    ∀ x : Operand, Instr.ofOpcode i.opcode (i.operands.getD 0 x) (i.operands.getD 1 x) (i.operands.getD 2 x) = some i

theorem halt : Statement .halt :=
  ⟨by decide, by decide, fun _ => rfl⟩

theorem set (a b : Operand) : Statement (.set a b) :=
  ⟨by simp [Instr.opcode], by simp [Instr.arity, Instr.operands], fun _ => rfl⟩

theorem push (a : Operand) : Statement (.push a) :=
  ⟨by simp [Instr.opcode], by simp [Instr.arity, Instr.operands], fun _ => rfl⟩

theorem pop (a : Operand) : Statement (.pop a) :=
  ⟨by simp [Instr.opcode], by simp [Instr.arity, Instr.operands], fun _ => rfl⟩

theorem eq (a b c : Operand) : Statement (.eq a b c) :=
  ⟨by simp [Instr.opcode], by simp [Instr.arity, Instr.operands], fun _ => rfl⟩

theorem gt (a b c : Operand) : Statement (.gt a b c) :=
  ⟨by simp [Instr.opcode], by simp [Instr.arity, Instr.operands], fun _ => rfl⟩

theorem jmp (a : Operand) : Statement (.jmp a) :=
  ⟨by simp [Instr.opcode], by simp [Instr.arity, Instr.operands], fun _ => rfl⟩

theorem jt (a b : Operand) : Statement (.jt a b) :=
  ⟨by simp [Instr.opcode], by simp [Instr.arity, Instr.operands], fun _ => rfl⟩

theorem jf (a b : Operand) : Statement (.jf a b) :=
  ⟨by simp [Instr.opcode], by simp [Instr.arity, Instr.operands], fun _ => rfl⟩

theorem add (a b c : Operand) : Statement (.add a b c) :=
  ⟨by simp [Instr.opcode], by simp [Instr.arity, Instr.operands], fun _ => rfl⟩

theorem mult (a b c : Operand) : Statement (.mult a b c) :=
  ⟨by simp [Instr.opcode], by simp [Instr.arity, Instr.operands], fun _ => rfl⟩

theorem mod (a b c : Operand) : Statement (.mod a b c) :=
  ⟨by simp [Instr.opcode], by simp [Instr.arity, Instr.operands], fun _ => rfl⟩

theorem and (a b c : Operand) : Statement (.and a b c) :=
  ⟨by simp [Instr.opcode], by simp [Instr.arity, Instr.operands], fun _ => rfl⟩

theorem or (a b c : Operand) : Statement (.or a b c) :=
  ⟨by simp [Instr.opcode], by simp [Instr.arity, Instr.operands], fun _ => rfl⟩

theorem not (a b : Operand) : Statement (.not a b) :=
  ⟨by simp [Instr.opcode], by simp [Instr.arity, Instr.operands], fun _ => rfl⟩

theorem rmem (a b : Operand) : Statement (.rmem a b) :=
  ⟨by simp [Instr.opcode], by simp [Instr.arity, Instr.operands], fun _ => rfl⟩

theorem wmem (a b : Operand) : Statement (.wmem a b) :=
  ⟨by simp [Instr.opcode], by simp [Instr.arity, Instr.operands], fun _ => rfl⟩

theorem call (a : Operand) : Statement (.call a) :=
  ⟨by simp [Instr.opcode], by simp [Instr.arity, Instr.operands], fun _ => rfl⟩

theorem ret : Statement .ret :=
  ⟨by decide, by decide, fun _ => rfl⟩

theorem out (a : Operand) : Statement (.out a) :=
  ⟨by simp [Instr.opcode], by simp [Instr.arity, Instr.operands], fun _ => rfl⟩

theorem inp (a : Operand) : Statement (.inp a) :=
  ⟨by simp [Instr.opcode], by simp [Instr.arity, Instr.operands], fun _ => rfl⟩

theorem noop : Statement .noop :=
  ⟨by decide, by decide, fun _ => rfl⟩

end Sys2Proof.Laws.Registry
end

