-- ==== Sys2Proof/Laws/Decode.lean ====
section
/-! SUPPORT. The operand classes of 30_encoding.md R63, word by word, and the way back. -/

namespace Sys2Proof

theorem ofCell_lit {v : Cell} (h : v.toNat < 32768) : Operand.ofCell v = .lit (v.setWidth 15) := by
  have h1 : v.toNat < regBase := h
  rw [Operand.ofCell, if_pos h1]

theorem ofCell_reg {v : Cell} {i : RegIndex} (h : v.toNat = 32768 + i.val) : Operand.ofCell v = .reg i := by
  have h1 : ¬v.toNat < regBase := by unfold regBase; omega
  have h2 : v.toNat < regLimit := by unfold regLimit; omega
  rw [Operand.ofCell, if_neg h1, dif_pos h2]
  simp only [Operand.reg.injEq]
  apply Fin.ext
  simp [regBase, h]

theorem ofCell_invalid {v : Cell} (h : 32776 ≤ v.toNat) : Operand.ofCell v = .invalid v := by
  have h1 : ¬v.toNat < regBase := by unfold regBase; omega
  have h2 : ¬v.toNat < regLimit := by unfold regLimit; omega
  rw [Operand.ofCell, if_neg h1, dif_neg h2]

/-- Every word is in one of the classes. -/
theorem ofCell_cases (v : Cell) :
    (v.toNat < 32768 ∧ Operand.ofCell v = .lit (v.setWidth 15)) ∨
    (∃ i : RegIndex, v.toNat = 32768 + i.val ∧ Operand.ofCell v = .reg i) ∨
    (32776 ≤ v.toNat ∧ Operand.ofCell v = .invalid v) := by
  rcases Nat.lt_or_ge v.toNat 32768 with h | h
  · exact .inl ⟨h, ofCell_lit h⟩
  · rcases Nat.lt_or_ge v.toNat 32776 with h' | h'
    · have e : v.toNat = 32768 + (⟨v.toNat - 32768, by omega⟩ : RegIndex).val := by
        simp only
        omega
      exact .inr (.inl ⟨_, e, ofCell_reg e⟩)
    · exact .inr (.inr ⟨h', ofCell_invalid h'⟩)

theorem toCell_lit_toNat (v : Word) : (Operand.lit v).toCell.toNat = v.toNat := by
  have := v.isLt
  simp only [Operand.toCell, BitVec.toNat_setWidth]
  omega

theorem toCell_reg_toNat (i : RegIndex) : (Operand.reg i).toCell.toNat = 32768 + i.val := by
  simp only [Operand.toCell, regBase, BitVec.toNat_ofNat]
  omega

theorem ofCell_wellFormed (v : Cell) : (Operand.ofCell v).wellFormed = true := by
  rcases ofCell_cases v with ⟨-, e⟩ | ⟨i, -, e⟩ | ⟨h, e⟩ <;> rw [e] <;> simp [Operand.wellFormed, *]

end Sys2Proof
end

