-- ==== Sys2Proof/Laws/State.lean ====
section
/-! SUPPORT. One lemma for each field of State under each named update, true by rfl, so that no proof unfolds an update;
and what a fault keeps and sets. -/

namespace Sys2Proof.Machine

@[simp] theorem State.setReg_params (s : State) (i : RegIndex) (v : Word) : (s.setReg i v).params = s.params := rfl
@[simp] theorem State.setReg_regs (s : State) (i : RegIndex) (v : Word) : (s.setReg i v).regs = s.regs.set i v := rfl
@[simp] theorem State.setReg_pc (s : State) (i : RegIndex) (v : Word) : (s.setReg i v).pc = s.pc := rfl
@[simp] theorem State.setReg_stack (s : State) (i : RegIndex) (v : Word) : (s.setReg i v).stack = s.stack := rfl
@[simp] theorem State.setReg_mem (s : State) (i : RegIndex) (v : Word) : (s.setReg i v).mem = s.mem := rfl
@[simp] theorem State.setReg_run (s : State) (i : RegIndex) (v : Word) : (s.setReg i v).run = s.run := rfl
@[simp] theorem State.setReg_inbuf (s : State) (i : RegIndex) (v : Word) : (s.setReg i v).inbuf = s.inbuf := rfl
@[simp] theorem State.setReg_outs (s : State) (i : RegIndex) (v : Word) : (s.setReg i v).outs = s.outs := rfl
@[simp] theorem State.setReg_dcache (s : State) (i : RegIndex) (v : Word) : (s.setReg i v).dcache = s.dcache := rfl
@[simp] theorem State.setReg_jdest (s : State) (i : RegIndex) (v : Word) : (s.setReg i v).jdest = s.jdest := rfl
@[simp] theorem State.setReg_watch (s : State) (i : RegIndex) (v : Word) : (s.setReg i v).watch = s.watch := rfl
@[simp] theorem State.setReg_stepMode (s : State) (i : RegIndex) (v : Word) : (s.setReg i v).stepMode = s.stepMode := rfl
@[simp] theorem State.setReg_stepSkip (s : State) (i : RegIndex) (v : Word) : (s.setReg i v).stepSkip = s.stepSkip := rfl
@[simp] theorem State.setReg_trace (s : State) (i : RegIndex) (v : Word) : (s.setReg i v).trace = s.trace := rfl
@[simp] theorem State.setReg_hostLines (s : State) (i : RegIndex) (v : Word) : (s.setReg i v).hostLines = s.hostLines := rfl
@[simp] theorem State.setReg_commands (s : State) (i : RegIndex) (v : Word) : (s.setReg i v).commands = s.commands := rfl
@[simp] theorem State.setReg_hold (s : State) (i : RegIndex) (v : Word) : (s.setReg i v).hold = s.hold := rfl
@[simp] theorem State.setReg_freeSeed (s : State) (i : RegIndex) (v : Word) : (s.setReg i v).freeSeed = s.freeSeed := rfl

@[simp] theorem State.push_params (s : State) (v : Cell) : (s.push v).params = s.params := rfl
@[simp] theorem State.push_regs (s : State) (v : Cell) : (s.push v).regs = s.regs := rfl
@[simp] theorem State.push_pc (s : State) (v : Cell) : (s.push v).pc = s.pc := rfl
@[simp] theorem State.push_stack (s : State) (v : Cell) : (s.push v).stack = v :: s.stack := rfl
@[simp] theorem State.push_mem (s : State) (v : Cell) : (s.push v).mem = s.mem := rfl
@[simp] theorem State.push_run (s : State) (v : Cell) : (s.push v).run = s.run := rfl
@[simp] theorem State.push_inbuf (s : State) (v : Cell) : (s.push v).inbuf = s.inbuf := rfl
@[simp] theorem State.push_outs (s : State) (v : Cell) : (s.push v).outs = s.outs := rfl
@[simp] theorem State.push_dcache (s : State) (v : Cell) : (s.push v).dcache = s.dcache := rfl
@[simp] theorem State.push_jdest (s : State) (v : Cell) : (s.push v).jdest = s.jdest := rfl
@[simp] theorem State.push_watch (s : State) (v : Cell) : (s.push v).watch = s.watch := rfl
@[simp] theorem State.push_stepMode (s : State) (v : Cell) : (s.push v).stepMode = s.stepMode := rfl
@[simp] theorem State.push_stepSkip (s : State) (v : Cell) : (s.push v).stepSkip = s.stepSkip := rfl
@[simp] theorem State.push_trace (s : State) (v : Cell) : (s.push v).trace = s.trace := rfl
@[simp] theorem State.push_hostLines (s : State) (v : Cell) : (s.push v).hostLines = s.hostLines := rfl
@[simp] theorem State.push_commands (s : State) (v : Cell) : (s.push v).commands = s.commands := rfl
@[simp] theorem State.push_hold (s : State) (v : Cell) : (s.push v).hold = s.hold := rfl
@[simp] theorem State.push_freeSeed (s : State) (v : Cell) : (s.push v).freeSeed = s.freeSeed := rfl

@[simp] theorem State.writeCell_params (s : State) (a : Nat) (v : Cell) : (s.writeCell a v).params = s.params := rfl
@[simp] theorem State.writeCell_regs (s : State) (a : Nat) (v : Cell) : (s.writeCell a v).regs = s.regs := rfl
@[simp] theorem State.writeCell_pc (s : State) (a : Nat) (v : Cell) : (s.writeCell a v).pc = s.pc := rfl
@[simp] theorem State.writeCell_stack (s : State) (a : Nat) (v : Cell) : (s.writeCell a v).stack = s.stack := rfl
@[simp] theorem State.writeCell_mem (s : State) (a : Nat) (v : Cell) : (s.writeCell a v).mem = s.mem.write a v := rfl
@[simp] theorem State.writeCell_run (s : State) (a : Nat) (v : Cell) : (s.writeCell a v).run = s.run := rfl
@[simp] theorem State.writeCell_inbuf (s : State) (a : Nat) (v : Cell) : (s.writeCell a v).inbuf = s.inbuf := rfl
@[simp] theorem State.writeCell_outs (s : State) (a : Nat) (v : Cell) : (s.writeCell a v).outs = s.outs := rfl
@[simp] theorem State.writeCell_dcache (s : State) (a : Nat) (v : Cell) : (s.writeCell a v).dcache = s.dcache := rfl
@[simp] theorem State.writeCell_jdest (s : State) (a : Nat) (v : Cell) : (s.writeCell a v).jdest = s.jdest := rfl
@[simp] theorem State.writeCell_watch (s : State) (a : Nat) (v : Cell) : (s.writeCell a v).watch = s.watch := rfl
@[simp] theorem State.writeCell_stepMode (s : State) (a : Nat) (v : Cell) : (s.writeCell a v).stepMode = s.stepMode := rfl
@[simp] theorem State.writeCell_stepSkip (s : State) (a : Nat) (v : Cell) : (s.writeCell a v).stepSkip = s.stepSkip := rfl
@[simp] theorem State.writeCell_trace (s : State) (a : Nat) (v : Cell) : (s.writeCell a v).trace = s.trace := rfl
@[simp] theorem State.writeCell_hostLines (s : State) (a : Nat) (v : Cell) : (s.writeCell a v).hostLines = s.hostLines := rfl
@[simp] theorem State.writeCell_commands (s : State) (a : Nat) (v : Cell) : (s.writeCell a v).commands = s.commands := rfl
@[simp] theorem State.writeCell_hold (s : State) (a : Nat) (v : Cell) : (s.writeCell a v).hold = s.hold := rfl
@[simp] theorem State.writeCell_freeSeed (s : State) (a : Nat) (v : Cell) : (s.writeCell a v).freeSeed = s.freeSeed := rfl

@[simp] theorem State.emit_params (s : State) (c : Word) : (s.emit c).params = s.params := rfl
@[simp] theorem State.emit_regs (s : State) (c : Word) : (s.emit c).regs = s.regs := rfl
@[simp] theorem State.emit_pc (s : State) (c : Word) : (s.emit c).pc = s.pc := rfl
@[simp] theorem State.emit_stack (s : State) (c : Word) : (s.emit c).stack = s.stack := rfl
@[simp] theorem State.emit_mem (s : State) (c : Word) : (s.emit c).mem = s.mem := rfl
@[simp] theorem State.emit_run (s : State) (c : Word) : (s.emit c).run = s.run := rfl
@[simp] theorem State.emit_inbuf (s : State) (c : Word) : (s.emit c).inbuf = s.inbuf := rfl
@[simp] theorem State.emit_outs (s : State) (c : Word) : (s.emit c).outs = s.outs ++ [c] := rfl
@[simp] theorem State.emit_dcache (s : State) (c : Word) : (s.emit c).dcache = s.dcache := rfl
@[simp] theorem State.emit_jdest (s : State) (c : Word) : (s.emit c).jdest = s.jdest := rfl
@[simp] theorem State.emit_watch (s : State) (c : Word) : (s.emit c).watch = s.watch := rfl
@[simp] theorem State.emit_stepMode (s : State) (c : Word) : (s.emit c).stepMode = s.stepMode := rfl
@[simp] theorem State.emit_stepSkip (s : State) (c : Word) : (s.emit c).stepSkip = s.stepSkip := rfl
@[simp] theorem State.emit_trace (s : State) (c : Word) : (s.emit c).trace = s.trace := rfl
@[simp] theorem State.emit_hostLines (s : State) (c : Word) : (s.emit c).hostLines = s.hostLines := rfl
@[simp] theorem State.emit_commands (s : State) (c : Word) : (s.emit c).commands = s.commands := rfl
@[simp] theorem State.emit_hold (s : State) (c : Word) : (s.emit c).hold = s.hold := rfl
@[simp] theorem State.emit_freeSeed (s : State) (c : Word) : (s.emit c).freeSeed = s.freeSeed := rfl

@[simp] theorem cacheInstr_params (i : Instr) (s : State) : (cacheInstr i s).params = s.params := rfl
@[simp] theorem cacheInstr_regs (i : Instr) (s : State) : (cacheInstr i s).regs = s.regs := rfl
@[simp] theorem cacheInstr_pc (i : Instr) (s : State) : (cacheInstr i s).pc = s.pc := rfl
@[simp] theorem cacheInstr_stack (i : Instr) (s : State) : (cacheInstr i s).stack = s.stack := rfl
@[simp] theorem cacheInstr_mem (i : Instr) (s : State) : (cacheInstr i s).mem = s.mem := rfl
@[simp] theorem cacheInstr_run (i : Instr) (s : State) : (cacheInstr i s).run = s.run := rfl
@[simp] theorem cacheInstr_inbuf (i : Instr) (s : State) : (cacheInstr i s).inbuf = s.inbuf := rfl
@[simp] theorem cacheInstr_outs (i : Instr) (s : State) : (cacheInstr i s).outs = s.outs := rfl
@[simp] theorem cacheInstr_dcache (i : Instr) (s : State) : (cacheInstr i s).dcache = fillSlot s.dcache s.pc.toNat i := rfl
@[simp] theorem cacheInstr_jdest (i : Instr) (s : State) : (cacheInstr i s).jdest = s.jdest := rfl
@[simp] theorem cacheInstr_watch (i : Instr) (s : State) : (cacheInstr i s).watch = s.watch := rfl
@[simp] theorem cacheInstr_stepMode (i : Instr) (s : State) : (cacheInstr i s).stepMode = s.stepMode := rfl
@[simp] theorem cacheInstr_stepSkip (i : Instr) (s : State) : (cacheInstr i s).stepSkip = s.stepSkip := rfl
@[simp] theorem cacheInstr_trace (i : Instr) (s : State) : (cacheInstr i s).trace = s.trace := rfl
@[simp] theorem cacheInstr_hostLines (i : Instr) (s : State) : (cacheInstr i s).hostLines = s.hostLines := rfl
@[simp] theorem cacheInstr_commands (i : Instr) (s : State) : (cacheInstr i s).commands = s.commands := rfl
@[simp] theorem cacheInstr_hold (i : Instr) (s : State) : (cacheInstr i s).hold = s.hold := rfl
@[simp] theorem cacheInstr_freeSeed (i : Instr) (s : State) : (cacheInstr i s).freeSeed = s.freeSeed := rfl

@[simp] theorem leaveOperatorPoint_params (s : State) : (leaveOperatorPoint s).params = s.params := rfl
@[simp] theorem leaveOperatorPoint_regs (s : State) : (leaveOperatorPoint s).regs = s.regs := rfl
@[simp] theorem leaveOperatorPoint_pc (s : State) : (leaveOperatorPoint s).pc = s.pc := rfl
@[simp] theorem leaveOperatorPoint_stack (s : State) : (leaveOperatorPoint s).stack = s.stack := rfl
@[simp] theorem leaveOperatorPoint_mem (s : State) : (leaveOperatorPoint s).mem = s.mem := rfl
@[simp] theorem leaveOperatorPoint_run (s : State) : (leaveOperatorPoint s).run = s.run := rfl
@[simp] theorem leaveOperatorPoint_inbuf (s : State) : (leaveOperatorPoint s).inbuf = s.inbuf := rfl
@[simp] theorem leaveOperatorPoint_outs (s : State) : (leaveOperatorPoint s).outs = s.outs := rfl
@[simp] theorem leaveOperatorPoint_dcache (s : State) : (leaveOperatorPoint s).dcache = s.dcache := rfl
@[simp] theorem leaveOperatorPoint_jdest (s : State) : (leaveOperatorPoint s).jdest = s.jdest := rfl
@[simp] theorem leaveOperatorPoint_watch (s : State) : (leaveOperatorPoint s).watch = s.watch := rfl
@[simp] theorem leaveOperatorPoint_stepMode (s : State) : (leaveOperatorPoint s).stepMode = s.stepMode := rfl
@[simp] theorem leaveOperatorPoint_stepSkip (s : State) : (leaveOperatorPoint s).stepSkip = s.stepSkip - 1 := rfl
@[simp] theorem leaveOperatorPoint_trace (s : State) : (leaveOperatorPoint s).trace = s.trace := rfl
@[simp] theorem leaveOperatorPoint_hostLines (s : State) : (leaveOperatorPoint s).hostLines = s.hostLines := rfl
@[simp] theorem leaveOperatorPoint_commands (s : State) : (leaveOperatorPoint s).commands = s.commands := rfl
@[simp] theorem leaveOperatorPoint_hold (s : State) : (leaveOperatorPoint s).hold = .none := rfl
@[simp] theorem leaveOperatorPoint_freeSeed (s : State) : (leaveOperatorPoint s).freeSeed = s.freeSeed := rfl

@[simp] theorem faultState_params (f : FaultInfo) (s : State) : (faultState f s).params = s.params := rfl
@[simp] theorem faultState_pc (f : FaultInfo) (s : State) : (faultState f s).pc = s.pc := rfl
@[simp] theorem faultState_run (f : FaultInfo) (s : State) : (faultState f s).run = .faulted ⟨f, s.pc⟩ := rfl
@[simp] theorem faultState_outs (f : FaultInfo) (s : State) : (faultState f s).outs = s.outs := rfl
@[simp] theorem faultState_hostLines (f : FaultInfo) (s : State) : (faultState f s).hostLines = s.hostLines := rfl
@[simp] theorem faultState_commands (f : FaultInfo) (s : State) : (faultState f s).commands = s.commands := rfl
@[simp] theorem faultState_hold (f : FaultInfo) (s : State) : (faultState f s).hold = .none := rfl
@[simp] theorem faultState_freeSeed (f : FaultInfo) (s : State) : (faultState f s).freeSeed = s.freeSeed + 1 := rfl

@[simp] theorem State.reg_eq (s : State) (i : RegIndex) : s.reg i = s.regs[i] := rfl

@[simp] theorem State.readCell_eq (s : State) (a : Nat) : s.readCell a = s.mem.read a := rfl

@[simp] theorem State.memSize_eq (s : State) : s.memSize = s.params.lastCell.val + 1 := rfl

/-- A register write is seen by a read of that register and by no other (10_state.md R12). -/
theorem setReg_reg (s : State) (i j : RegIndex) (v : Word) :
    (s.setReg i v).reg j = if i = j then v else s.reg j := by
  simp only [State.reg_eq, State.setReg_regs, Fin.getElem_fin, Vector.getElem_set]
  simp only [Fin.val_inj]

end Sys2Proof.Machine
end

