-- ==== Sys2Proof/Laws/Memory.lean ====
section
/-! SUPPORT. The laws of slots, of memory and of address sets: read after write, what a write leaves alone, and that
every operation keeps the canonical form. -/

namespace Sys2Proof.Machine

variable {α : Type}

/-! ### Slots -/

theorem slotAt_fillSlot_same (m : List (Nat × α)) (a : Nat) (v : α) : slotAt (fillSlot m a v) a = some v := by
  induction m with
  | nil => simp [fillSlot, slotAt]
  | cons c rest ih =>
    obtain ⟨k, w⟩ := c
    simp only [fillSlot]
    split
    · simp [slotAt]
    · split
      · simp [slotAt]
      · simp only [slotAt]
        rw [if_neg (by omega)]
        exact ih

theorem slotAt_fillSlot_other (m : List (Nat × α)) {a b : Nat} (v : α) (h : b ≠ a) :
    slotAt (fillSlot m a v) b = slotAt m b := by
  induction m with
  | nil => simp [fillSlot, slotAt, h.symm]
  | cons c rest ih =>
    obtain ⟨k, w⟩ := c
    simp only [fillSlot]
    split
    · simp [slotAt, h.symm]
    · split
      · next _ hk => subst hk; simp [slotAt, h.symm]
      · simp only [slotAt, ih]

theorem slotAt_clearSlot_same (m : List (Nat × α)) (a : Nat) : slotAt (clearSlot m a) a = none := by
  induction m with
  | nil => rfl
  | cons c rest ih =>
    obtain ⟨k, w⟩ := c
    simp only [clearSlot] at ih ⊢
    by_cases h : k = a
    · rw [List.filter_cons_of_neg (by simp [h]), ih]
    · rw [List.filter_cons_of_pos (by simp [h])]
      simp only [slotAt, if_neg h, ih]

theorem slotAt_clearSlot_other (m : List (Nat × α)) {a b : Nat} (h : b ≠ a) :
    slotAt (clearSlot m a) b = slotAt m b := by
  induction m with
  | nil => rfl
  | cons c rest ih =>
    obtain ⟨k, w⟩ := c
    simp only [clearSlot] at ih ⊢
    by_cases hc : k = a
    · rw [List.filter_cons_of_neg (by simp [hc]), ih]
      simp only [slotAt, hc, if_neg h.symm]
    · rw [List.filter_cons_of_pos (by simp [hc])]
      simp only [slotAt, ih]

theorem mem_fillSlot {m : List (Nat × α)} {a : Nat} {v : α} {c : Nat × α} (h : c ∈ fillSlot m a v) :
    c = (a, v) ∨ c ∈ m := by
  induction m with
  | nil => simpa [fillSlot] using h
  | cons d rest ih =>
    simp only [fillSlot] at h
    split at h
    · simpa using h
    · split at h
      · rcases List.mem_cons.1 h with h | h
        · exact .inl h
        · exact .inr (List.mem_cons_of_mem _ h)
      · rcases List.mem_cons.1 h with h | h
        · exact .inr (h ▸ List.mem_cons_self)
        · rcases ih h with h | h
          · exact .inl h
          · exact .inr (List.mem_cons_of_mem _ h)

theorem fillSlot_rising {m : List (Nat × α)} (h : Rising m) (a : Nat) (v : α) : Rising (fillSlot m a v) := by
  induction m with
  | nil => simp [fillSlot]
  | cons c rest ih =>
    obtain ⟨k, w⟩ := c
    obtain ⟨hk, hr⟩ := List.pairwise_cons.1 h
    simp only [fillSlot]
    split
    · next ha =>
      refine List.pairwise_cons.2 ⟨fun d hd => ?_, h⟩
      rcases List.mem_cons.1 hd with rfl | hd
      · exact ha
      · exact Nat.lt_trans ha (hk d hd)
    · split
      · next _ ha => subst ha; exact List.pairwise_cons.2 ⟨hk, hr⟩
      · refine List.pairwise_cons.2 ⟨fun d hd => ?_, ih hr⟩
        rcases mem_fillSlot hd with rfl | hd
        · simp only; omega
        · exact hk d hd

theorem clearSlot_rising {m : List (Nat × α)} (h : Rising m) (a : Nat) : Rising (clearSlot m a) :=
  h.sublist List.filter_sublist

theorem mem_clearSlot {m : List (Nat × α)} {a : Nat} {c : Nat × α} (h : c ∈ clearSlot m a) : c ∈ m :=
  (List.mem_filter.1 h).1

/-! ### Memory (20_memory.md R41) -/

theorem read_write_same (m : Memory) (a : Nat) (v : Cell) : (m.write a v).read a = v := by
  unfold Memory.write Memory.read
  split
  · next h => simp [slotAt_clearSlot_same, h]
  · simp [slotAt_fillSlot_same]

theorem read_write_other (m : Memory) {a b : Nat} (v : Cell) (h : b ≠ a) : (m.write a v).read b = m.read b := by
  unfold Memory.write Memory.read
  split
  · rw [slotAt_clearSlot_other m h]
  · rw [slotAt_fillSlot_other m v h]

/-- Every memory operation keeps the canonical form. -/
theorem write_wf {m : Memory} (h : m.wf) (a : Nat) (v : Cell) : (m.write a v).wf := by
  unfold Memory.write
  split
  · exact ⟨clearSlot_rising h.1 a, fun c hc => h.2 c (mem_clearSlot hc)⟩
  · next hv =>
    refine ⟨fillSlot_rising h.1 a v, fun c hc => ?_⟩
    rcases mem_fillSlot hc with rfl | hc
    · exact hv
    · exact h.2 c hc

/-- A write lists no address but the one it writes and those that were listed. -/
theorem mem_write {m : Memory} {a : Nat} {v : Cell} {c : Nat × Cell} (h : c ∈ m.write a v) : c.1 = a ∨ c ∈ m := by
  unfold Memory.write at h
  split at h
  · exact .inr (mem_clearSlot h)
  · rcases mem_fillSlot h with rfl | h
    · exact .inl rfl
    · exact .inr h

/-- The memory of the reset state is in canonical form. -/
theorem reset_mem_wf : State.reset.mem.wf := by decide

/-! ### Address sets -/

theorem mem_insertAddr {l : List Nat} {a b : Nat} : b ∈ insertAddr l a ↔ b = a ∨ b ∈ l := by
  induction l with
  | nil => simp [insertAddr]
  | cons k rest ih =>
    simp only [insertAddr]
    split
    · simp
    · split
      · next _ h => subst h; simp
      · simp only [List.mem_cons, ih]
        tauto

theorem insertAddr_rising {l : List Nat} (h : l.Pairwise (· < ·)) (a : Nat) :
    (insertAddr l a).Pairwise (· < ·) := by
  induction l with
  | nil => simp [insertAddr]
  | cons k rest ih =>
    obtain ⟨hk, hr⟩ := List.pairwise_cons.1 h
    simp only [insertAddr]
    split
    · next ha =>
      refine List.pairwise_cons.2 ⟨fun d hd => ?_, h⟩
      rcases List.mem_cons.1 hd with rfl | hd
      · exact ha
      · exact Nat.lt_trans ha (hk d hd)
    · split
      · exact h
      · refine List.pairwise_cons.2 ⟨fun d hd => ?_, ih hr⟩
        rcases mem_insertAddr.1 hd with rfl | hd
        · omega
        · exact hk d hd

end Sys2Proof.Machine
end

