-- ==== Sys2Proof/Laws/Ops.lean ====
section
/-! SUPPORT. One lemma for each shared operation that says everything it can do; the proofs about instructions cite these
and do not unfold the operations. -/

namespace Sys2Proof.Machine

@[simp] theorem raise_eq (f : FaultInfo) (s : State) : raise f s = .next (faultState f s) := rfl

@[simp] theorem continueAfter_eq (n : Nat) (s : State) :
    continueAfter n s = .next { s with pc := s.pc + BitVec.ofNat 16 (n + 1) } := rfl

@[simp] theorem jumpTo_eq (c : Cell) (s : State) :
    jumpTo c s = .next { s with
      pc := c, jdest := if s.params.debugEnable then insertAddr s.jdest c.toNat else s.jdest } := rfl

@[simp] theorem haltHere_eq (s : State) : haltHere s = .next { s with run := .halted .explicit } := rfl

@[simp] theorem isFaulted_faultState (f : FaultInfo) (s : State) : (faultState f s).isFaulted = true := rfl

/-- FAULTED is what the run state says. -/
theorem isFaulted_iff (s : State) : s.isFaulted = true ↔ ∃ r, s.run = .faulted r := by
  unfold State.isFaulted
  split <;> simp_all

@[simp] theorem resolveRead_lit (v : Word) (s : State) : resolveRead (.lit v) s = .ok v := rfl

@[simp] theorem resolveRead_reg (i : RegIndex) (s : State) : resolveRead (.reg i) s = .ok s.regs[i] := rfl

@[simp] theorem resolveRead_invalid (c : Cell) (s : State) :
    resolveRead (.invalid c) s = .error (.invalidAddressingMode c) := rfl

/-- The read path: a value and the rest of the handler, or InvalidAddressingMode (40_execution_loop.md R88). -/
theorem withRead_cases (o : Operand) (s : State) (k : Word → Result) :
    (∃ v, resolveRead o s = .ok v ∧ withRead o s k = k v) ∨
    (∃ c, o = .invalid c ∧ withRead o s k = .next (faultState (.invalidAddressingMode c) s)) := by
  cases o with
  | lit v => exact .inl ⟨v, rfl, rfl⟩
  | reg i => exact .inl ⟨_, rfl, rfl⟩
  | invalid c => exact .inr ⟨c, rfl, rfl⟩

theorem withRead_ok {o : Operand} {s : State} {v : Word} (h : resolveRead o s = .ok v) (k : Word → Result) :
    withRead o s k = k v := by
  simp only [withRead, h]

/-- The write path: the register written and the rest of the handler, or InvalidWriteTarget (40_execution_loop.md
R89). -/
theorem withWrite_cases (o : Operand) (val : Nat) (s : State) (k : State → Result) :
    (∃ d, o = .reg d ∧ withWrite o val s k = k (s.setReg d (toWord val))) ∨
    ((∀ d, o ≠ .reg d) ∧ withWrite o val s k = .next (faultState (.invalidWriteTarget o.toCell) s)) := by
  cases o with
  | lit v => exact .inr ⟨fun d => by simp, rfl⟩
  | reg i => exact .inl ⟨i, rfl, rfl⟩
  | invalid c => exact .inr ⟨fun d => by simp, rfl⟩

@[simp] theorem withWrite_reg (d : RegIndex) (val : Nat) (s : State) (k : State → Result) :
    withWrite (.reg d) val s k = k (s.setReg d (toWord val)) := rfl

theorem withWrite_bad {o : Operand} (h : ∀ d, o ≠ .reg d) (val : Nat) (s : State) (k : State → Result) :
    withWrite o val s k = .next (faultState (.invalidWriteTarget o.toCell) s) := by
  rcases withWrite_cases o val s k with ⟨d, hd, -⟩ | ⟨-, e⟩
  · exact absurd hd (h d)
  · exact e

/-- `Pop()`: the top and the rest of the handler, or StackUnderflow (10_state.md R18). -/
theorem withPop_cases (s : State) (k : Cell → State → Result) :
    (∃ v rest, s.stack = v :: rest ∧ withPop s k = k v { s with stack := rest }) ∨
    (s.stack = [] ∧ withPop s k = .next (faultState .stackUnderflow s)) := by
  unfold withPop
  cases s.stack with
  | nil => exact .inr ⟨rfl, rfl⟩
  | cons v rest => exact .inl ⟨v, rest, rfl, rfl⟩

/-- The test of a data address (20_memory.md R55). -/
theorem withDataAddress_cases (addr : Word) (s : State) (k : Nat → Result) :
    (addr.toNat < s.memSize ∧ withDataAddress addr s k = k addr.toNat) ∨
    (s.memSize ≤ addr.toNat ∧
      withDataAddress addr s k = .next (faultState (.memoryAddressOutOfRange addr.toNat) s)) := by
  unfold withDataAddress
  split
  · next h => exact .inr ⟨h, rfl⟩
  · next h => exact .inl ⟨by omega, rfl⟩

/-- The load keeps the canonical form (70_reset_and_hazards.md R261). -/
theorem loadWords_wf (ws : List Cell) (a : Nat) {m : Memory} (h : m.wf) : (loadWords ws a m).wf := by
  induction ws generalizing a m with
  | nil => exact h
  | cons w ws ih => exact ih _ (write_wf h a w)

/-- The patch facility keeps the canonical form (70_reset_and_hazards.md R262). -/
theorem applyPatches_wf (ps : List (Nat × Cell)) {m : Memory} (h : m.wf) : (applyPatches ps m).wf := by
  induction ps generalizing m with
  | nil => exact h
  | cons p ps ih => exact ih (write_wf h p.1 p.2)

/-- The free contents of a FAULTED core have the canonical form. -/
theorem canonicalContents_wf (size : Nat) (c : Contents) : Memory.wf (canonicalContents size c).mem := by
  have fold : ∀ (l : List (Nat × Cell)) (m : Memory), m.wf →
      Memory.wf (l.foldl (fun m w => Memory.write m w.1 w.2) m) := by
    intro l
    induction l with
    | nil => exact fun m h => h
    | cons w l ih => exact fun m h => ih _ (write_wf h w.1 w.2)
  exact fold _ _ ⟨List.Pairwise.nil, by simp⟩

/-- A reduced value is itself when it is a Word's. -/
@[simp] theorem toWord_toNat (v : Word) : toWord v.toNat = v := by
  apply BitVec.eq_of_toNat_eq
  simpa [toWord] using v.isLt

theorem toNat_toWord (n : Nat) : (toWord n).toNat = n % 32768 := by simp [toWord]

/-- Taking a character changes the input buffer and, with the escape hook enabled, registers; nothing else
(46_io.md R173, R175). -/
theorem takeChar_frame (buf : List Nat) (s : State) :
    ∃ regs rest, (takeChar buf s).2 = { s with regs := regs, inbuf := rest } ∧
      (s.params.escapeEnable = false → regs = s.regs) := by
  induction buf generalizing s with
  | nil => exact ⟨s.regs, [], rfl, fun _ => rfl⟩
  | cons ch rest ih =>
    simp only [takeChar]
    split
    · next h =>
      obtain ⟨regs, r, e, -⟩ := ih (s.setReg Config.escapeRegister (toWord s.params.escapeValue))
      refine ⟨regs, r, by rw [e]; rfl, fun hoff => ?_⟩
      rw [hoff] at h
      cases h
    · exact ⟨s.regs, rest, rfl, fun _ => rfl⟩

/-- `NextChar()` changes the input buffer, the host's lines and, with the escape hook enabled, registers; nothing
else. -/
theorem nextChar_frame (s : State) :
    ∃ regs rest lines, (nextChar s).2 = { s with regs := regs, inbuf := rest, hostLines := lines } ∧
      (s.params.escapeEnable = false → regs = s.regs) := by
  obtain ⟨regs, r, e, hoff⟩ := takeChar_frame s.inbuf s
  unfold nextChar
  split
  · next ch t h =>
    rw [h] at e
    exact ⟨regs, r, s.hostLines, e, hoff⟩
  · next t h =>
    rw [h] at e
    simp only at e
    subst e
    split
    · next hl => exact ⟨regs, r, [], by rw [← hl], hoff⟩
    · next line lines _ =>
      obtain ⟨regs2, r2, e2, hoff2⟩ := takeChar_frame (line ++ [Config.newline])
        { s with regs := regs, inbuf := r, hostLines := lines }
      exact ⟨regs2, r2, lines, e2, fun hp => (hoff2 hp).trans (hoff hp)⟩

/-- A handler always answers a next state: no instruction is refused and a fault is a next state too. -/
theorem exec_answers (i : Instr) (s : State) : ∃ t, exec i s = .next t := by
  have read {o : Operand} {u : State} {k : Word → Result} (hk : ∀ v, ∃ t, k v = .next t) :
      ∃ t, withRead o u k = .next t := by
    rcases withRead_cases o u k with ⟨v, -, e⟩ | ⟨c, -, e⟩
    · rw [e]; exact hk v
    · exact ⟨_, e⟩
  have write {o : Operand} {val : Nat} {u : State} {k : State → Result} (hk : ∀ v, ∃ t, k v = .next t) :
      ∃ t, withWrite o val u k = .next t := by
    rcases withWrite_cases o val u k with ⟨d, -, e⟩ | ⟨-, e⟩
    · rw [e]; exact hk _
    · exact ⟨_, e⟩
  have addr {v : Word} {u : State} {k : Nat → Result} (hk : ∀ v, ∃ t, k v = .next t) :
      ∃ t, withDataAddress v u k = .next t := by
    rcases withDataAddress_cases v u k with ⟨-, e⟩ | ⟨-, e⟩
    · rw [e]; exact hk _
    · exact ⟨_, e⟩
  have pop {u : State} {k : Cell → State → Result} (hk : ∀ v t, ∃ t', k v t = .next t') :
      ∃ t, withPop u k = .next t := by
    rcases withPop_cases u k with ⟨v, rest, -, e⟩ | ⟨-, e⟩
    · rw [e]; exact hk _ _
    · exact ⟨_, e⟩
  have three (f : Word → Word → Nat) (a b c : Operand) : ∃ t, binary f a b c s = .next t :=
    read fun _ => read fun _ => write fun _ => ⟨_, rfl⟩
  cases i with
  | halt => exact ⟨_, rfl⟩
  | set a b => exact read fun _ => write fun _ => ⟨_, rfl⟩
  | push a => exact read fun _ => ⟨_, rfl⟩
  | pop a =>
    simp only [exec, execPop]
    exact pop fun _ _ => write fun _ => ⟨_, rfl⟩
  | eq a b c => exact three _ a b c
  | gt a b c => exact three _ a b c
  | jmp a => exact read fun _ => ⟨_, rfl⟩
  | jt a b =>
    refine read fun v => ?_
    split
    · exact read fun _ => ⟨_, rfl⟩
    · exact ⟨_, rfl⟩
  | jf a b =>
    refine read fun v => ?_
    split
    · exact ⟨_, rfl⟩
    · exact read fun _ => ⟨_, rfl⟩
  | add a b c => exact three _ a b c
  | mult a b c => exact three _ a b c
  | mod a b c =>
    refine read fun _ => read fun vc => ?_
    split
    · exact ⟨_, rfl⟩
    · exact write fun _ => ⟨_, rfl⟩
  | and a b c => exact three _ a b c
  | or a b c => exact three _ a b c
  | not a b => exact read fun _ => write fun _ => ⟨_, rfl⟩
  | rmem a b => exact read fun _ => addr fun _ => write fun _ => ⟨_, rfl⟩
  | wmem a b => exact read fun _ => read fun _ => addr fun _ => ⟨_, rfl⟩
  | call a => exact read fun _ => ⟨_, rfl⟩
  | ret =>
    simp only [exec, execRet]
    exact pop fun _ _ => ⟨_, rfl⟩
  | out a => exact read fun _ => ⟨_, rfl⟩
  | inp a =>
    simp only [exec, execInp]
    split
    · exact write fun _ => ⟨_, rfl⟩
    · exact ⟨_, rfl⟩
  | noop => exact ⟨_, rfl⟩

end Sys2Proof.Machine
end

