-- ==== Sys2Proof/Laws/Step.lean ====
section
/-! SUPPORT. What the instrumentation layer and one step can do, said once: the proofs about steps cite these and unfold
neither. -/

namespace Sys2Proof.Machine

/-- From `s` to `t` only registers (by `rs`), the debugger session, the command queue, the cache and the wait differ: all
that stage 5 can change (40_execution_loop.md R85). -/
def LayerFrame (s t : State) : Prop :=
  ∃ regs watch stepMode stepSkip trace commands hold dcache, t = { s with
    regs := regs, watch := watch, stepMode := stepMode, stepSkip := stepSkip, trace := trace, commands := commands,
    hold := hold, dcache := dcache }

theorem LayerFrame.trans {s t u : State} (h : LayerFrame s t) (h' : LayerFrame t u) : LayerFrame s u := by
  obtain ⟨_, _, _, _, _, _, _, _, rfl⟩ := h
  obtain ⟨_, _, _, _, _, _, _, _, rfl⟩ := h'
  exact ⟨_, _, _, _, _, _, _, _, rfl⟩

theorem LayerFrame.core {s t : State} (h : LayerFrame s t) :
    t.params = s.params ∧ t.pc = s.pc ∧ t.stack = s.stack ∧ t.mem = s.mem ∧ t.run = s.run ∧ t.inbuf = s.inbuf ∧
    t.outs = s.outs ∧ t.jdest = s.jdest ∧ t.hostLines = s.hostLines ∧ t.freeSeed = s.freeSeed := by
  obtain ⟨_, _, _, _, _, _, _, _, rfl⟩ := h
  exact ⟨rfl, rfl, rfl, rfl, rfl, rfl, rfl, rfl, rfl, rfl⟩

theorem runCommand_frame (c : Command) (s : State) :
    ∃ regs watch stepSkip trace, runCommand c s = { s with
      regs := regs, watch := watch, stepSkip := stepSkip, trace := trace } := by
  cases c with
  | rs i v => simp only [runCommand]; split <;> exact ⟨_, _, _, _, rfl⟩
  | w l => simp only [runCommand]; split <;> exact ⟨_, _, _, _, rfl⟩
  | help | r | d | n _ | dis | malformed => exact ⟨_, _, _, _, rfl⟩

theorem takeCommands_frame (cs : List Command) (s : State) :
    ∃ regs watch stepSkip trace commands, (takeCommands cs s).2 = { s with
      regs := regs, watch := watch, stepSkip := stepSkip, trace := trace, commands := commands } := by
  induction cs generalizing s with
  | nil => exact ⟨_, _, _, _, _, rfl⟩
  | cons c cs ih =>
    obtain ⟨_, _, _, _, e⟩ := runCommand_frame c s
    simp only [takeCommands]
    split
    · obtain ⟨_, _, _, _, _, e2⟩ := ih (runCommand c s)
      rw [e2, e]
      exact ⟨_, _, _, _, _, rfl⟩
    · rw [e]
      exact ⟨_, _, _, _, _, rfl⟩

/-- The operator point lets the instruction execute or holds, and leaves the cache alone (60_exceptions.md R239). -/
theorem operatorPoint_cases (s : State) :
    (∃ t, operatorPoint s = .proceed t ∧ t.hold = .none ∧ t.dcache = s.dcache ∧ LayerFrame s t) ∨
    ∃ t, operatorPoint s = .held t ∧ t.hold = .operator ∧ t.dcache = s.dcache ∧ LayerFrame s t := by
  unfold operatorPoint
  split
  · obtain ⟨_, _, _, _, _, e⟩ := takeCommands_frame s.commands s
    rcases h : takeCommands s.commands s with ⟨b, u⟩
    rw [h] at e
    simp only at e
    subst e
    cases b
    · exact .inr ⟨_, rfl, rfl, rfl, _, _, _, _, _, _, _, _, rfl⟩
    · exact .inl ⟨_, rfl, rfl, rfl, _, _, _, _, _, _, _, _, rfl⟩
  · exact .inl ⟨_, rfl, rfl, rfl, _, _, _, _, _, _, _, _, rfl⟩

theorem watchCheck_frame (i : Instr) (s : State) :
    ∃ watch stepMode stepSkip, watchCheck i s = { s with watch := watch, stepMode := stepMode, stepSkip := stepSkip } := by
  unfold watchCheck
  split <;> exact ⟨_, _, _, rfl⟩

/-- Stage 5 proceeds, holds, or stops with SelfModifyingCodeDetected (40_execution_loop.md R85). -/
theorem stage5_cases (i : Instr) (s : State) :
    (∃ t, stage5 i s = .proceed t ∧ t.hold = .none ∧ LayerFrame s t ∧
      (t.dcache = s.dcache ∨ t.dcache = fillSlot s.dcache s.pc.toNat i)) ∨
    (∃ t, stage5 i s = .held t ∧ t.hold = .operator ∧ LayerFrame s t ∧
      (t.dcache = s.dcache ∨ t.dcache = fillSlot s.dcache s.pc.toNat i)) ∨
    ∃ f, selfModification i s = some f ∧ s.params.debugEnable = true ∧ stage5 i s = .stopped (faultState f s) := by
  unfold stage5
  split
  · next hd =>
    split
    · unfold instrument
      split
      · next f hf => exact .inr (.inr ⟨f, hf, hd, rfl⟩)
      · obtain ⟨w, m, k, e⟩ := watchCheck_frame i (cacheInstr i s)
        rw [e]
        have hl : LayerFrame s { cacheInstr i s with watch := w, stepMode := m, stepSkip := k } :=
          ⟨_, _, _, _, _, _, _, _, rfl⟩
        rcases operatorPoint_cases { cacheInstr i s with watch := w, stepMode := m, stepSkip := k } with
          ⟨t, e, h, hc, h'⟩ | ⟨t, e, h, hc, h'⟩
        · exact .inl ⟨t, e, h, hl.trans h', .inr hc⟩
        · exact .inr (.inl ⟨t, e, h, hl.trans h', .inr hc⟩)
    · rcases operatorPoint_cases s with ⟨t, e, h, hc, h'⟩ | ⟨t, e, h, hc, h'⟩
      · exact .inl ⟨t, e, h, h', .inl hc⟩
      · exact .inr (.inl ⟨t, e, h, h', .inl hc⟩)
    · exact .inl ⟨_, rfl, rfl, ⟨_, _, _, _, _, _, _, _, rfl⟩, .inl rfl⟩
  · exact .inl ⟨_, rfl, rfl, ⟨_, _, _, _, _, _, _, _, rfl⟩, .inl rfl⟩

/-- Everything a step of a RUNNING core can do (40_execution_loop.md R80): halt off the end, fault in the fetch, fault in
stage 5, run the handler of the fetched instruction, or hold in stage 5. -/
theorem step_cases {s t : State} (hr : s.run = .running) (h : step s = .next t) :
    (s.memSize ≤ s.pc.toNat ∧ t = { s with run := .halted .offEnd }) ∨
    (s.pc.toNat < s.memSize ∧ ∃ f, fetch s = .error f ∧ t = faultState f s) ∨
    (s.pc.toNat < s.memSize ∧ ∃ i, fetch s = .ok i ∧
      ((∃ f, selfModification i s = some f ∧ s.params.debugEnable = true ∧ t = faultState f s) ∨
        (∃ u, stage5 i s = .proceed u ∧ u.hold = .none ∧ LayerFrame s u ∧
          (u.dcache = s.dcache ∨ u.dcache = fillSlot s.dcache s.pc.toNat i) ∧ exec i u = .next t) ∨
        (stage5 i s = .held t ∧ t.hold = .operator ∧ LayerFrame s t ∧
          (t.dcache = s.dcache ∨ t.dcache = fillSlot s.dcache s.pc.toNat i)))) := by
  simp only [step, hr, offEnd, decide_eq_true_eq] at h
  split at h
  · next hm => exact .inl ⟨hm, by cases h; rfl⟩
  · next hm =>
    have hm' : s.pc.toNat < s.memSize := Nat.lt_of_not_le hm
    split at h
    · next f hf => exact .inr (.inl ⟨hm', f, hf, by cases h; rfl⟩)
    · next i hf =>
      refine .inr (.inr ⟨hm', i, hf, ?_⟩)
      rcases stage5_cases i s with ⟨u, e, h1, h2, h3⟩ | ⟨u, e, h1, h2, h3⟩ | ⟨f, h1, h2, e⟩
      · rw [e] at h
        exact .inr (.inl ⟨u, e, h1, h2, h3, h⟩)
      · rw [e] at h
        cases h
        exact .inr (.inr ⟨e, h1, h2, h3⟩)
      · rw [e] at h
        cases h
        exact .inl ⟨f, h1, h2, rfl⟩

end Sys2Proof.Machine
end

