-- ==== Sys2Proof/Tests/Slice0.lean ====
section
/-! SUPPORT. Tests and witnesses. The expected results are those of 95_test_vectors.md and of the worked examples of the
source; the words of the decoding tests are written out from the opcode map of 30_encoding.md R65. A theorem
`witness_X` meets the hypotheses of `Obligations.X`, clause by clause. -/

namespace Sys2Proof.Tests

open Sys2Proof.Machine Sys2Proof.Spec

/-! ### Small states -/

/-- The reset state with words from address 0. -/
def boot (ws : List Cell) : State := { State.reset with mem := loadWords ws 0 [] }

/-- The registers of 95_test_vectors.md 2.2. -/
def sample (ws : List Cell) : State := { boot ws with regs := #v[11, 22, 33, 44, 55, 66, 77, 88] }

/-- The same core with MEM_SIZE 16. -/
def small (s : State) : State := { s with params := { s.params with lastCell := 15 } }

/-- The same core with the instrumentation layer and its check on. -/
def layered (s : State) : State :=
  { s with params := { s.params with debugEnable := true, smcCheckEnable := true } }

/-- The same core with the escape hook on and ESCAPE_VALUE 40000. -/
def hooked (s : State) : State :=
  { s with params := { s.params with escapeEnable := true, escapeValue := 40000 } }

/-- What holds of the next state. -/
def after {α : Type} (r : Result) (f : State → α) : Option α :=
  match r with
  | .next t => some (f t)
  | .fault _ => none
  | .refused _ => none

/-- The fault of a next state. -/
def faultOf (r : Result) : Option (FaultInfo × Cell) :=
  match r with
  | .next t => match t.run with
    | .faulted record => some (record.fault, record.pc)
    | .halted _ => none
    | .running => none
  | .fault _ => none
  | .refused _ => none

/-- The first `n` registers after one step. -/
def regsAfter (s : State) (n : Nat) : Option (List Nat × Nat) :=
  after (step s) fun t => ((t.regs.toList.take n).map BitVec.toNat, t.pc.toNat)

/-! ### WellFormed refuses what stands for no word -/

/-- A word below 32776 is a literal or a register reference, never of the class `invalid` (R63). -/
theorem test_wellFormed_refuses_small_invalid :
    Operand.wellFormed (.invalid 32775) = false ∧ Operand.wellFormed (.invalid 0) = false ∧
    Operand.wellFormed (.invalid 32776) = true := by decide

theorem test_wellFormed_refuses_in_each_position :
    Instr.wellFormed (.add (.invalid 5) (.lit 1) (.lit 1)) = false ∧
    Instr.wellFormed (.add (.reg 0) (.invalid 5) (.lit 1)) = false ∧
    Instr.wellFormed (.add (.reg 0) (.lit 1) (.invalid 5)) = false ∧
    Instr.wellFormed (.add (.reg 0) (.lit 1) (.invalid 65535)) = true := by decide

/-! ### Decoding: one word list for each constructor (30_encoding.md R65) -/

theorem test_decode_halt : decode [0x0000] = .ok (.halt, []) := by decide
theorem test_decode_set : decode [0x0001, 0x8001, 0x0005] = .ok (.set (.reg 1) (.lit 5), []) := by decide
theorem test_decode_push : decode [0x0002, 0x0007] = .ok (.push (.lit 7), []) := by decide
theorem test_decode_pop : decode [0x0003, 0x8000] = .ok (.pop (.reg 0), []) := by decide
theorem test_decode_eq :
    decode [0x0004, 0x8000, 0x8001, 0x0005] = .ok (.eq (.reg 0) (.reg 1) (.lit 5), []) := by decide
theorem test_decode_gt :
    decode [0x0005, 0x8000, 0x7fff, 0x0000] = .ok (.gt (.reg 0) (.lit 32767) (.lit 0), []) := by decide
theorem test_decode_jmp : decode [0x0006, 0x7ffe] = .ok (.jmp (.lit 32766), []) := by decide
theorem test_decode_jt : decode [0x0007, 0x8001, 0x0006] = .ok (.jt (.reg 1) (.lit 6), []) := by decide
theorem test_decode_jf : decode [0x0008, 0x0000, 0x9c40] = .ok (.jf (.lit 0) (.invalid 40000), []) := by decide
theorem test_decode_add :
    decode [0x0009, 0x8000, 0x0004, 0x0006, 0x0013] = .ok (.add (.reg 0) (.lit 4) (.lit 6), [0x0013]) := by decide
theorem test_decode_mult :
    decode [0x000a, 0x8000, 0x012c, 0x012c] = .ok (.mult (.reg 0) (.lit 300) (.lit 300), []) := by decide
theorem test_decode_mod :
    decode [0x000b, 0x8000, 0x8000, 0x0064] = .ok (.mod (.reg 0) (.reg 0) (.lit 100), []) := by decide
theorem test_decode_and :
    decode [0x000c, 0x8007, 0x5555, 0x3333] = .ok (.and (.reg 7) (.lit 21845) (.lit 13107), []) := by decide
theorem test_decode_or :
    decode [0x000d, 0x8007, 0x8006, 0x8005] = .ok (.or (.reg 7) (.reg 6) (.reg 5), []) := by decide
theorem test_decode_not : decode [0x000e, 0x8000, 0x8000] = .ok (.not (.reg 0) (.reg 0), []) := by decide
theorem test_decode_rmem : decode [0x000f, 0x8000, 0x0014] = .ok (.rmem (.reg 0) (.lit 20), []) := by decide
theorem test_decode_wmem : decode [0x0010, 0x0015, 0x8007] = .ok (.wmem (.lit 21) (.reg 7), []) := by decide
theorem test_decode_call : decode [0x0011, 0x0009] = .ok (.call (.lit 9), []) := by decide
theorem test_decode_ret : decode [0x0012, 0x0001] = .ok (.ret, [0x0001]) := by decide
theorem test_decode_out : decode [0x0013, 0x0041] = .ok (.out (.lit 65), []) := by decide
theorem test_decode_inp : decode [0x0014, 0x8008] = .ok (.inp (.invalid 32776), []) := by decide
theorem test_decode_noop : decode [0x0015] = .ok (.noop, []) := by decide

/-- 95_test_vectors.md 2.1: the opcode is the whole word. -/
theorem test_decode_unknown :
    decode [22] = .error (.unknownOpcode 22) ∧ decode [32768] = .error (.unknownOpcode 32768) ∧
    decode [0x0115] = .error (.unknownOpcode 0x0115) ∧ decode [9, 1, 2] = .error (.truncated 9) := by decide

/-- The table numbers bits from the least significant bit of the first word; operand words it gives no bits are 0. -/
theorem test_decode_table_word :
    decodeTableWord 64 0x0006000480000009 = some (.add (.reg 0) (.lit 4) (.lit 6)) ∧
    decodeTableWord 16 0x0009 = some (.add (.lit 0) (.lit 0) (.lit 0)) ∧ decodeTableWord 16 22 = none := by decide

theorem test_withFetchWord_runs :
    regsAfter (State.reset.withFetchWord 64 0x0006000480000009) 1 = some ([10], 4) := by decide

/-! ### One step of each instruction (95_test_vectors.md 1.1, 2.3 to 2.8) -/

theorem test_halt_all_zero :
    after (step (boot [])) (fun t => (t.run, t.pc)) = some (.halted .explicit, 0) := by decide
theorem test_set : regsAfter (boot [1, 32768, 32767, 0]) 2 = some ([32767, 0], 3) := by decide
theorem test_set_source_first : faultOf (step (boot [1, 5, 40000])) = some (.invalidAddressingMode 40000, 0) := by decide
theorem test_push : after (step (sample [2, 32768])) (fun t => (t.stack, t.pc)) = some ([11], 2) := by decide
theorem test_pop_last_in_first_out :
    after (step { boot [3, 32769, 0] with stack := [8, 4] }) (fun t => (t.stack, t.reg 1)) = some ([4], 8) := by decide
theorem test_pop_underflow_first : faultOf (step (boot [3, 5])) = some (.stackUnderflow, 0) := by decide
theorem test_eq_compares_values : regsAfter (sample [4, 32768, 32769, 22]) 1 = some ([1], 4) := by decide
theorem test_gt_unsigned : regsAfter (boot [5, 32768, 32767, 0]) 1 = some ([1], 4) := by decide
theorem test_gt_strict : regsAfter (sample [5, 32768, 3, 3]) 1 = some ([0], 4) := by decide
theorem test_jmp : regsAfter (boot [6, 4, 19, 65, 0]) 0 = some ([], 4) := by decide
theorem test_jt_taken : regsAfter (boot [7, 32767, 5]) 0 = some ([], 5) := by decide
theorem test_jt_target_unresolved : regsAfter (boot [7, 0, 40000]) 0 = some ([], 3) := by decide
theorem test_jf_taken : regsAfter (boot [8, 0, 5]) 0 = some ([], 5) := by decide
theorem test_jf_target_resolved : faultOf (step (boot [8, 0, 40000])) = some (.invalidAddressingMode 40000, 0) := by decide
theorem test_add_wraps : regsAfter (boot [9, 32768, 32767, 1]) 1 = some ([0], 4) := by decide
theorem test_add_source_is_destination :
    regsAfter { boot [9, 32768, 32768, 32768] with regs := Vector.replicate 8 20000 } 1 = some ([7232], 4) := by decide
theorem test_mult_wraps : regsAfter (boot [10, 32768, 32767, 32767]) 1 = some ([1], 4) := by decide
theorem test_mod : regsAfter (boot [11, 32768, 24464, 100]) 1 = some ([64], 4) := by decide
theorem test_mod_zero_before_target : faultOf (step (boot [11, 0, 1, 0])) = some (.divideByZero, 0) := by decide
theorem test_and : regsAfter (boot [12, 32768, 12345, 23456]) 1 = some ([4128], 4) := by decide
theorem test_or : regsAfter (boot [13, 32768, 12345, 23456]) 1 = some ([31673], 4) := by decide
theorem test_not : regsAfter (boot [14, 32768, 12345]) 1 = some ([20422], 3) := by decide
theorem test_rmem_reduces : regsAfter (boot [15, 32768, 4, 0, 40000]) 1 = some ([7232], 3) := by decide
theorem test_rmem_out_of_range :
    faultOf (step (small (boot [15, 32768, 100]))) = some (.memoryAddressOutOfRange 100, 0) := by decide
theorem test_wmem_highest :
    after (step (boot [16, 32767, 1])) (fun t => (t.readCell 32767, t.mem.length)) = some (1, 4) := by decide
theorem test_wmem_own_opcode : after (step (boot [16, 0, 21, 0])) (fun t => t.readCell 0) = some 21 := by decide
theorem test_call_pushes_32768 :
    after (step { boot [] with pc := 32766, mem := [(32766, 17), (32767, 5)] }) (fun t => (t.stack, t.pc)) =
      some ([32768], 5) := by decide
theorem test_ret_takes_32768 :
    after (step { boot [18] with stack := [32768] }) (fun t => (t.stack, t.pc)) = some ([], 32768) := by decide
theorem test_out : after (step (boot [19, 65, 0])) (fun t => (t.outs, t.pc)) = some ([65], 2) := by decide
theorem test_inp_leaves_newline :
    after (step { boot [20, 32768, 0] with hostLines := [[65]] }) (fun t => (t.reg 0, t.inbuf)) =
      some (65, [10]) := by decide
theorem test_inp_escape :
    after (step (hooked { boot [20, 32768, 0] with hostLines := [[37, 37, 97]] }))
      (fun t => (t.reg 0, t.reg 7, t.inbuf)) = some (97, 7232, [10]) := by decide
theorem test_noop : regsAfter (boot [21, 21, 0]) 8 = some ([0, 0, 0, 0, 0, 0, 0, 0], 1) := by decide

/-! ### The loop, the layer, the texts and the load (95_test_vectors.md 2.1, 2.9, 3) -/

theorem test_loop_off_end :
    after (step { boot [] with pc := 32768 }) (fun t => (t.run, t.pc)) = some (.halted .offEnd, 32768) := by decide
theorem test_loop_truncated :
    faultOf (step { boot [] with pc := 32765, mem := [(32765, 9)] }) =
      some (.truncatedInstruction 9, 32765) := by decide
theorem test_loop_last_words :
    regsAfter { boot [] with pc := 32764, mem := [(32764, 9), (32765, 32768), (32766, 1), (32767, 2)] } 1 =
      some ([3], 32768) := by decide
theorem test_loop_unknown_cut :
    faultOf (step { boot [] with pc := 32766, mem := [(32766, 100), (32767, 7)] }) =
      some (.unknownOpcode [100, 7], 32766) := by decide
theorem test_layer_detects_change :
    faultOf (step (layered { boot [19, 66] with dcache := [(0, .out (.lit 65))] })) =
      some (.selfModifyingCodeDetected 0 "out 65" "out 66", 0) := by decide
theorem test_layer_watch_unresolved :
    after (step (layered { boot [7, 0, 32770] with watch := watchSet [2] }))
      (fun t => (t.watch, t.stepMode, t.hold, t.pc)) =
      some (Vector.replicate 8 false, true, .operator, 0) := by decide
theorem test_layer_jdest : after (step (layered (boot [17, 9]))) (fun t => t.jdest) = some [9] := by decide

theorem test_render :
    render (.add (.reg 1) (.reg 1) (.lit 32767)) = "add r2 r2 32767" ∧
    render (.add (.lit 5) (.invalid 40000) (.invalid 32776)) = "add 5 40000 32776" ∧
    render .ret = "ret" ∧ render (.inp (.reg 7)) = "in r8" := by decide

/-- From the listing of program P1. -/
theorem test_export :
    exportLines { boot [] with
      dcache := [(3, .set (.reg 1) (.lit 5)), (6, .add (.reg 0) (.reg 0) (.reg 1))], jdest := [6] } =
      ["3| set r2 5", "", "6| add r1 r1 r2"] := by decide

/-- The bytes of the start of program P2, and a patch. -/
theorem test_launch :
    after (launch Params.initial [0x02, 0x00, 0x07, 0x00, 0x11, 0x00, 0x09, 0x80] [(1, 5), (1, 6)] [] [])
      (fun t => (t.mem, t.pc)) = some ([(0, 2), (1, 6), (2, 17), (3, 32777)], 0) := by decide

theorem test_write_back_to_unlisted : Memory.write [(3, 7)] 3 0 = [] := by decide

/-! ### Witnesses: the instructions -/

/-- The core is about to execute what its words decode to. -/
theorem at_of {s : State} {i : Instr} {rest : List Cell} (h1 : s.run = .running) (h2 : s.pc.toNat < s.memSize)
    (h3 : decode (s.cellsFrom s.pc.toNat 4) = .ok (i, rest)) : AtInstr s i := ⟨h1, h2, rest, h3⟩

theorem reads_lit (s : State) (v : Word) : ReadsAs s (.lit v) v := .inl rfl

theorem reads_reg (s : State) (i : RegIndex) : ReadsAs s (.reg i) s.regs[i] := .inr ⟨i, rfl, rfl⟩

theorem notRegister_lit (v : Word) : NotRegister (.lit v) := fun d => by simp

theorem notRegister_invalid (c : Cell) : NotRegister (.invalid c) := fun d => by simp

/-- Operands of every class at the ends of their ranges, each with what the clauses of the instruction statements ask
of it: sources that resolve, destinations that are registers, and operands that are neither. -/
theorem operand_witnesses :
    ReadsAs (sample []) (.lit 0) 0 ∧ ReadsAs (sample []) (.lit 32767) 32767 ∧ ReadsAs (sample []) (.reg 0) 11 ∧
    ReadsAs (sample []) (.reg 7) 88 ∧ NotRegister (.lit 0) ∧ NotRegister (.lit 32767) ∧
    NotRegister (.invalid 32776) ∧ NotRegister (.invalid 65535) ∧ (Operand.reg 0 = .reg 0 ∧ Operand.reg 7 = .reg 7) :=
  ⟨reads_lit _ _, reads_lit _ _, reads_reg (sample []) 0, reads_reg (sample []) 7, notRegister_lit _, notRegister_lit _,
    notRegister_invalid _, notRegister_invalid _, rfl, rfl⟩

/-- One operand for each clause of `TwoOperands`. -/
theorem witness_SetCopiesAValue :
    (Operand.reg 7 = .reg 7 ∧ ReadsAs (sample []) (.lit 32767) 32767) ∧
    (∃ w, Operand.invalid 32776 = .invalid w) ∧ (ReadsAs (sample []) (.reg 7) 88 ∧ NotRegister (.lit 0)) :=
  ⟨⟨rfl, reads_lit _ _⟩, ⟨_, rfl⟩, reads_reg (sample []) 7, notRegister_lit _⟩

theorem witness_NotIsTheFifteenBitComplement :
    (Operand.reg 0 = .reg 0 ∧ ReadsAs (sample []) (.reg 0) 11) ∧
    (∃ w, Operand.invalid 65535 = .invalid w) ∧ (ReadsAs (sample []) (.lit 0) 0 ∧ NotRegister (.invalid 32776)) :=
  ⟨⟨rfl, reads_reg (sample []) 0⟩, ⟨_, rfl⟩, reads_lit _ _, notRegister_invalid _⟩

/-- One operand list for each clause of `ThreeOperands`. -/
theorem witness_ComparisonsWriteOneOrZero :
    (Operand.reg 0 = .reg 0 ∧ ReadsAs (sample []) (.lit 0) 0 ∧ ReadsAs (sample []) (.lit 32767) 32767) ∧
    (∃ w, Operand.invalid 32776 = .invalid w) ∧
    (ReadsAs (sample []) (.lit 1) 1 ∧ ∃ w, Operand.invalid 32776 = .invalid w) ∧
    (ReadsAs (sample []) (.lit 1) 1 ∧ ReadsAs (sample []) (.reg 7) 88 ∧ NotRegister (.lit 7)) :=
  ⟨⟨rfl, reads_lit _ _, reads_lit _ _⟩, ⟨_, rfl⟩, ⟨reads_lit _ _, _, rfl⟩, reads_lit _ _, reads_reg (sample []) 7,
    notRegister_lit _⟩

theorem witness_AddAndMultAreModular :
    (Operand.reg 7 = .reg 7 ∧ ReadsAs (sample []) (.reg 7) 88 ∧ ReadsAs (sample []) (.lit 32767) 32767) ∧
    (∃ w, Operand.invalid 40000 = .invalid w) ∧
    (ReadsAs (sample []) (.lit 1) 1 ∧ ∃ w, Operand.invalid 40001 = .invalid w) ∧
    (ReadsAs (sample []) (.lit 1) 1 ∧ ReadsAs (sample []) (.lit 2) 2 ∧ NotRegister (.invalid 40000)) :=
  ⟨⟨rfl, reads_reg (sample []) 7, reads_lit _ _⟩, ⟨_, rfl⟩, ⟨reads_lit _ _, _, rfl⟩, reads_lit _ _, reads_lit _ _,
    notRegister_invalid _⟩

theorem witness_AndAndOrAreBitwise :
    (Operand.reg 0 = .reg 0 ∧ ReadsAs (sample []) (.lit 21845) 21845 ∧ ReadsAs (sample []) (.reg 0) 11) ∧
    (∃ w, Operand.invalid 65535 = .invalid w) ∧
    (ReadsAs (sample []) (.lit 0) 0 ∧ ∃ w, Operand.invalid 65535 = .invalid w) ∧
    (ReadsAs (sample []) (.lit 0) 0 ∧ ReadsAs (sample []) (.lit 0) 0 ∧ NotRegister (.lit 32767)) :=
  ⟨⟨rfl, reads_lit _ _, reads_reg (sample []) 0⟩, ⟨_, rfl⟩, ⟨reads_lit _ _, _, rfl⟩, reads_lit _ _, reads_lit _ _,
    notRegister_lit _⟩

theorem witness_HaltStopsAndNoopOnlyAdvances :
    (∃ s : State, AtInstr s .halt ∧ s.params.debugEnable = true ∧ s.hold = .none ∧ slotAt s.dcache s.pc.toNat = none) ∧
    (∃ s : State, AtInstr s .halt ∧ s.params.debugEnable = true ∧ s.hold = .none ∧
      slotAt s.dcache s.pc.toNat = some .halt) ∧
    (∃ s : State, AtInstr s .noop ∧ s.params.debugEnable = true ∧ s.hold = .none ∧ slotAt s.dcache s.pc.toNat = none) ∧
    (∃ s : State, AtInstr s .noop ∧ s.params.debugEnable = true ∧ s.hold = .none ∧
      slotAt s.dcache s.pc.toNat = some .noop) ∧
    ∃ s : State, s.run = .running ∧ s.pc.toNat + 1 = s.memSize :=
  ⟨⟨layered (boot []), at_of rfl (by decide) (rest := [0, 0, 0]) (by decide), rfl, rfl, rfl⟩,
    ⟨layered { boot [] with dcache := [(0, .halt)] }, at_of rfl (by decide) (rest := [0, 0, 0]) (by decide), rfl, rfl, rfl⟩,
    ⟨layered (boot [21]), at_of rfl (by decide) (rest := [0, 0, 0]) (by decide), rfl, rfl, rfl⟩,
    ⟨layered { boot [21] with dcache := [(0, .noop)] }, at_of rfl (by decide) (rest := [0, 0, 0]) (by decide), rfl, rfl,
      rfl⟩,
    { boot [] with pc := 32767 }, rfl, by decide⟩

theorem witness_PushAndPopWorkOnTheTop :
    ReadsAs (sample []) (.lit 32767) 32767 ∧ (∃ w, Operand.invalid 32776 = .invalid w) ∧
    (Operand.reg 7 = .reg 7 ∧ ({ boot [] with stack := [32768] } : State).stack = 32768 :: []) ∧
    (boot []).stack = [] ∧ (({ boot [] with stack := [1] } : State).stack ≠ [] ∧ NotRegister (.lit 5)) :=
  ⟨reads_lit _ _, ⟨_, rfl⟩, ⟨rfl, rfl⟩, rfl, by decide, notRegister_lit _⟩

theorem witness_JmpGoesToItsTarget :
    ReadsAs (sample []) (.lit 32767) 32767 ∧ ReadsAs (sample []) (.reg 7) 88 ∧
    ∃ w, Operand.invalid 40000 = .invalid w :=
  ⟨reads_lit _ _, reads_reg (sample []) 7, _, rfl⟩

/-- Taken at 1 and 32767 (`jt`) and at 0 (`jf`), not taken at the others, and the invalid operands. -/
theorem witness_ConditionalJumpsTestForZero :
    (ReadsAs (sample []) (.lit 1) 1 ∧ (1 : Word) ≠ 0 ∧ ReadsAs (sample []) (.reg 7) 88) ∧
    (ReadsAs (sample []) (.lit 32767) 32767 ∧ (32767 : Word) ≠ 0) ∧
    (ReadsAs (sample []) (.lit 0) 0 ∧ ¬(0 : Word) ≠ 0) ∧ (∃ w, Operand.invalid 40000 = .invalid w) :=
  ⟨⟨reads_lit _ _, by decide, reads_reg (sample []) 7⟩, ⟨reads_lit _ _, by decide⟩, ⟨reads_lit _ _, by decide⟩, _, rfl⟩

theorem witness_ModIsTheRemainder :
    (Operand.reg 7 = .reg 7 ∧ ReadsAs (sample []) (.lit 32767) 32767 ∧ ReadsAs (sample []) (.lit 1) 1 ∧ (1 : Word) ≠ 0) ∧
    (∃ w, Operand.invalid 32776 = .invalid w) ∧
    (ReadsAs (sample []) (.lit 7) 7 ∧ ReadsAs (sample []) (.lit 0) 0) ∧
    (ReadsAs (sample []) (.lit 7) 7 ∧ ReadsAs (sample []) (.reg 0) 11 ∧ (11 : Word) ≠ 0 ∧ NotRegister (.lit 0)) :=
  ⟨⟨rfl, reads_lit _ _, reads_lit _ _, by decide⟩, ⟨_, rfl⟩, ⟨reads_lit _ _, reads_lit _ _⟩, reads_lit _ _,
    reads_reg (sample []) 0, by decide, notRegister_lit _⟩

/-- The last address inside memory and the first outside it. -/
theorem witness_RmemLoadsACell :
    (Operand.reg 7 = .reg 7 ∧ ReadsAs (small (sample [])) (.lit 15) 15 ∧ (15 : Word).toNat < (small (sample [])).memSize) ∧
    (∃ w, Operand.invalid 32776 = .invalid w) ∧
    (ReadsAs (small (sample [])) (.lit 16) 16 ∧ (small (sample [])).memSize ≤ (16 : Word).toNat) ∧
    (ReadsAs (sample []) (.lit 32767) 32767 ∧ (32767 : Word).toNat < (sample []).memSize ∧ NotRegister (.lit 5)) :=
  ⟨⟨rfl, reads_lit _ _, by decide⟩, ⟨_, rfl⟩, ⟨reads_lit _ _, by decide⟩, reads_lit _ _, by decide, notRegister_lit _⟩

theorem witness_WmemStoresAWord :
    (ReadsAs (sample []) (.lit 32767) 32767 ∧ ReadsAs (sample []) (.reg 7) 88 ∧
      (32767 : Word).toNat < (sample []).memSize) ∧
    (∃ w, Operand.invalid 40000 = .invalid w) ∧
    (ReadsAs (small (sample [])) (.lit 16) 16 ∧ ReadsAs (small (sample [])) (.lit 1) 1 ∧
      (small (sample [])).memSize ≤ (16 : Word).toNat) :=
  ⟨⟨reads_lit _ _, reads_reg (sample []) 7, by decide⟩, ⟨_, rfl⟩, reads_lit _ _, reads_lit _ _, by decide⟩

theorem witness_CallPushesTheNextAddress :
    ReadsAs (sample []) (.reg 7) 88 ∧ ∃ w, Operand.invalid 32776 = .invalid w := ⟨reads_reg (sample []) 7, _, rfl⟩

theorem witness_RetGoesToTheTop :
    (({ boot [] with stack := [32768, 4] } : State).stack = 32768 :: [4] ∧ (boot []).run = .running ∧
      (boot []).memSize ≤ (32768 : Cell).toNat) ∧ (boot []).stack = [] := ⟨⟨rfl, rfl, by decide⟩, rfl⟩

theorem witness_OutEmitsOneCharacter :
    ReadsAs (sample []) (.lit 32767) 32767 ∧ ∃ w, Operand.invalid 32776 = .invalid w := ⟨reads_lit _ _, _, rfl⟩

/-- A character from the buffer, one behind two escapes, one from a line, one behind an escape in each; no input with
and without a buffered escape. -/
theorem witness_InReadsOneCharacter :
    (Operand.reg 7 = .reg 7 ∧ NotRegister (.lit 5)) ∧
    (∃ u, Delivers { boot [] with inbuf := [37, 10] } 37 u) ∧
    (∃ u, Delivers (hooked { boot [] with inbuf := [37, 37, 97] }) 97 u) ∧
    (∃ u, Delivers { boot [] with hostLines := [[]] } 10 u) ∧
    (∃ u, Delivers (hooked { boot [] with inbuf := [37], hostLines := [[37]] }) 10 u) ∧
    NoInput (boot []) 0 ∧ NoInput (hooked { boot [] with inbuf := [37, 37] }) 2 :=
  ⟨⟨rfl, notRegister_lit _⟩,
    ⟨_, .inl ⟨0, [10], ⟨rfl, rfl⟩, rfl⟩⟩,
    ⟨_, .inl ⟨2, [], ⟨rfl, by decide⟩, rfl⟩⟩,
    ⟨_, .inr ⟨0, 0, [], [], [], ⟨rfl, fun _ => rfl⟩, rfl, ⟨rfl, rfl⟩, rfl⟩⟩,
    ⟨_, .inr ⟨1, 1, [37], [], [], ⟨rfl, by decide⟩, rfl, ⟨rfl, by decide⟩, rfl⟩⟩,
    ⟨⟨rfl, fun _ => rfl⟩, rfl⟩, ⟨rfl, by decide⟩, rfl⟩

/-! ### Witnesses: frames, operands, faults -/

/-- The instruction completes from the sample state without a fault. -/
def Completes (i : Instr) (s : State) : Prop := ∃ t, exec i s = .next t ∧ t.isFaulted = false

theorem witness_RegisterWriteFrame :
    Completes (.set (.reg 7) (.reg 0)) (sample []) ∧ Completes (.eq (.reg 0) (.lit 5) (.reg 1)) (sample []) ∧
    Completes (.gt (.reg 0) (.lit 5) (.reg 1)) (sample []) ∧ Completes (.add (.reg 0) (.reg 0) (.lit 32767)) (sample []) ∧
    Completes (.mult (.reg 7) (.reg 0) (.lit 32767)) (sample []) ∧ Completes (.mod (.reg 1) (.reg 2) (.lit 1)) (sample []) ∧
    Completes (.and (.reg 1) (.lit 0) (.lit 1)) (sample []) ∧ Completes (.or (.reg 1) (.lit 0) (.lit 1)) (sample []) ∧
    Completes (.not (.reg 1) (.lit 0)) (sample []) ∧ Completes (.rmem (.reg 1) (.lit 32767)) (sample []) ∧
    destOf (.rmem (.reg 1) (.lit 32767)) = some (.reg 1) :=
  ⟨⟨_, rfl, rfl⟩, ⟨_, rfl, rfl⟩, ⟨_, rfl, rfl⟩, ⟨_, rfl, rfl⟩, ⟨_, rfl, rfl⟩, ⟨_, rfl, rfl⟩, ⟨_, rfl, rfl⟩, ⟨_, rfl, rfl⟩,
    ⟨_, rfl, rfl⟩, ⟨_, rfl, rfl⟩, rfl⟩

theorem witness_StackFrame :
    Completes (.push (.reg 7)) (sample []) ∧ Completes (.pop (.reg 7)) { sample [] with stack := [32768] } ∧
    Completes (.call (.lit 32767)) (sample []) ∧ Completes .ret { sample [] with stack := [32768] } ∧
    (sample []).stack = [] :=
  ⟨⟨_, rfl, rfl⟩, ⟨_, rfl, rfl⟩, ⟨_, rfl, rfl⟩, ⟨_, rfl, rfl⟩, rfl⟩

theorem witness_StoreFrame :
    Completes (.wmem (.lit 32767) (.reg 7)) (sample []) ∧ resolveRead (.lit 32767) (sample []) = .ok 32767 :=
  ⟨⟨_, rfl, rfl⟩, rfl⟩

theorem witness_ControlFrame :
    Completes .halt (sample []) ∧ Completes .noop (sample []) ∧ Completes (.jmp (.reg 7)) (layered (sample [])) ∧
    Completes (.jt (.lit 1) (.lit 5)) (sample []) ∧ Completes (.jf (.lit 1) (.lit 5)) (sample []) :=
  ⟨⟨_, rfl, rfl⟩, ⟨_, rfl, rfl⟩, ⟨_, rfl, rfl⟩, ⟨_, rfl, rfl⟩, ⟨_, rfl, rfl⟩⟩

theorem witness_InputOutputFrame :
    Completes (.out (.reg 7)) (sample []) ∧ Completes (.inp (.reg 0)) { sample [] with hostLines := [[65]] } ∧
    Completes (.inp (.reg 0)) (hooked { sample [] with inbuf := [37] }) :=
  ⟨⟨_, rfl, rfl⟩, ⟨_, rfl, rfl⟩, ⟨_, rfl, rfl⟩⟩

theorem witness_ReadPathResolves :
    (32767 : Cell).toNat < 32768 ∧ (32768 : Cell).toNat = 32768 + (0 : RegIndex).val ∧
    (32775 : Cell).toNat = 32768 + (7 : RegIndex).val ∧ 32776 ≤ (32776 : Cell).toNat := by decide

theorem witness_WritePathReduces :
    (32767 : Cell).toNat < 32768 ∧ (32775 : Cell).toNat = 32768 + (7 : RegIndex).val ∧
    32776 ≤ (32776 : Cell).toNat := by decide

theorem witness_FaultsArePrecise :
    (boot []).isFaulted = false ∧ ∃ t, exec .ret (boot []) = .next t ∧ t.isFaulted = true := ⟨rfl, _, rfl, rfl⟩

/-- Every fault that a handler raises. -/
theorem witness_FaultsHaveTheirCauses :
    (∃ t, exec (.out (.invalid 32776)) (boot []) = .next t ∧ t.run = .faulted ⟨.invalidAddressingMode 32776, 0⟩) ∧
    (∃ t, exec (.set (.lit 5) (.lit 7)) (boot []) = .next t ∧ t.run = .faulted ⟨.invalidWriteTarget 5, 0⟩) ∧
    (∃ t, exec .ret (boot []) = .next t ∧ t.run = .faulted ⟨.stackUnderflow, 0⟩) ∧
    (∃ t, exec (.mod (.reg 0) (.lit 1) (.lit 0)) (boot []) = .next t ∧ t.run = .faulted ⟨.divideByZero, 0⟩) ∧
    ∃ t, exec (.rmem (.reg 0) (.lit 16)) (small (boot [])) = .next t ∧
      t.run = .faulted ⟨.memoryAddressOutOfRange 16, 0⟩ :=
  ⟨⟨_, rfl, rfl⟩, ⟨_, rfl, rfl⟩, ⟨_, rfl, rfl⟩, ⟨_, rfl, rfl⟩, ⟨_, rfl, rfl⟩⟩

theorem witness_OperandClasses :
    (32767 : Cell).toNat < 32768 ∧ (32768 ≤ (32768 : Cell).toNat ∧ (32768 : Cell).toNat < 32776) ∧
    (32768 ≤ (32775 : Cell).toNat ∧ (32775 : Cell).toNat < 32776) ∧ 32776 ≤ (32776 : Cell).toNat := by decide

theorem witness_OnlyTwentyTwoOpcodes :
    decode [22, 0] = .error (.unknownOpcode 22) ∧ decode [21, 0] ≠ .error (.unknownOpcode 21) ∧
    (boot [22]).run = .running ∧ (boot [22]).pc.toNat < (boot [22]).memSize ∧
    22 ≤ ((boot [22]).readCell (boot [22]).pc.toNat).toNat := by decide

theorem witness_DecodeOfEncode : Instr.wellFormed (.add (.reg 7) (.lit 32767) (.invalid 32776)) = true := by decide

theorem witness_EncodeOfDecode :
    decode [9, 32775, 32767, 32776, 0] = .ok (.add (.reg 7) (.lit 32767) (.invalid 32776), [0]) := by decide

/-! ### Witnesses: the loop and the invariants -/

/-- The layer off; the layer on and the handler to run; a hold; a stop. -/
theorem witness_StepRunsTheDecodedInstruction :
    (AtInstr (boot [21]) .noop ∧ (boot [21]).params.debugEnable = false ∧ (boot [21]).hold = .none) ∧
    (AtInstr (layered (boot [21])) .noop ∧ ∃ t, stage5 .noop (layered (boot [21])) = .proceed t) ∧
    (AtInstr (layered { boot [21] with stepMode := true }) .noop ∧
      ∃ t, stage5 .noop (layered { boot [21] with stepMode := true }) = .held t) ∧
    (AtInstr (layered { boot [21] with dcache := [(0, .halt)] }) .noop ∧
      ∃ t, stage5 .noop (layered { boot [21] with dcache := [(0, .halt)] }) = .stopped t) :=
  ⟨⟨at_of rfl (by decide) (rest := [0, 0, 0]) (by decide), rfl, rfl⟩,
    ⟨at_of rfl (by decide) (rest := [0, 0, 0]) (by decide), _, rfl⟩,
    ⟨at_of rfl (by decide) (rest := [0, 0, 0]) (by decide), _, rfl⟩,
    at_of rfl (by decide) (rest := [0, 0, 0]) (by decide), _, rfl⟩

theorem witness_OffTheEndIsACleanHalt :
    ({ boot [] with pc := 32768 } : State).run = .running ∧
    ({ boot [] with pc := 32768 } : State).memSize ≤ ({ boot [] with pc := 32768 } : State).pc.toNat := by decide

theorem witness_UnknownOpcodeIsReported :
    (boot [22]).run = .running ∧ (boot [22]).pc.toNat < (boot [22]).memSize ∧
    22 ≤ ((boot [22]).readCell (boot [22]).pc.toNat).toNat := by decide

/-- With 16 cells, `add` is truncated at 13 and ends in the last cell at 12. -/
theorem witness_TruncatedInstructionIsReported :
    (∃ (s : State) (i : Instr) (x y z : Operand), s.run = .running ∧ s.pc.toNat < s.memSize ∧
      Instr.ofOpcode (s.readCell s.pc.toNat).toNat x y z = some i ∧ s.memSize ≤ s.pc.toNat + i.arity) ∧
    ∃ (s : State) (i : Instr) (x y z : Operand), s.run = .running ∧ s.pc.toNat < s.memSize ∧
      Instr.ofOpcode (s.readCell s.pc.toNat).toNat x y z = some i ∧ s.pc.toNat + i.arity < s.memSize :=
  ⟨⟨small { boot [] with pc := 13, mem := [(13, 9)] }, .add (.lit 0) (.lit 0) (.lit 0), .lit 0, .lit 0, .lit 0, rfl,
      by decide, by decide, by decide⟩,
    small { boot [] with pc := 12, mem := [(12, 9)] }, .add (.lit 0) (.lit 0) (.lit 0), .lit 0, .lit 0, .lit 0, rfl,
      by decide, by decide, by decide⟩

theorem witness_FinalStatesAreFinal :
    ({ boot [] with run := .halted .offEnd } : State).run = .halted .offEnd ∧
    ({ boot [] with run := .faulted ⟨.divideByZero, 0⟩ } : State).run = .faulted ⟨.divideByZero, 0⟩ ∧
    (boot []).run = .running := ⟨rfl, rfl, rfl⟩

theorem witness_TheLoopEndsInThreeWays :
    (∃ t, step (boot []) = .next t ∧ t.run = .halted .explicit) ∧
    (∃ t, step { boot [] with pc := 32768 } = .next t ∧ t.run = .halted .offEnd) ∧
    ∃ t, step (boot [18]) = .next t ∧ t.isFaulted = true :=
  ⟨⟨_, rfl, rfl⟩, ⟨_, rfl, rfl⟩, _, rfl, rfl⟩

theorem witness_StoragesHaveTheirOwnMutators :
    (∃ t, step (boot [16, 32767, 1]) = .next t ∧ t.isFaulted = false ∧
      t.readCell 32767 ≠ (boot [16, 32767, 1]).readCell 32767) ∧
    ∃ t, step (boot [2, 7]) = .next t ∧ t.isFaulted = false ∧ t.stack ≠ (boot [2, 7]).stack :=
  ⟨⟨_, rfl, rfl, by decide⟩, _, rfl, rfl, by decide⟩

theorem witness_OutputOnlyGrows : ∃ t, step (boot [19, 65]) = .next t ∧ t.outs = [65] := ⟨_, rfl, rfl⟩

/-- A state whose every part is in use. -/
def busy : State :=
  { boot [21] with stack := [32768], dcache := [(0, .noop), (32767, .halt)], jdest := [0, 32768] }

theorem busy_kept : Kept busy :=
  ⟨by decide, by decide, by simp [busy], by decide, by decide, by decide, by decide, by decide⟩

theorem witness_StepKeepsTheInvariant : Kept busy ∧ ∃ t, step busy = .next t := ⟨busy_kept, _, rfl⟩

theorem witness_LaunchMeetsTheInvariant :
    ∃ t, launch Params.initial [0x13, 0x00, 0x41, 0x00] [(32767, 1)] [[72]] [.r] = .next t := ⟨_, rfl⟩

theorem witness_MemoriesThatReadAlikeAreEqual :
    Memory.wf (Memory.write (Memory.write [] 5 1) 3 2) ∧ Memory.wf [(3, 2), (5, 1)] ∧
    ∀ a, Memory.read (Memory.write (Memory.write [] 5 1) 3 2) a = Memory.read [(3, 2), (5, 1)] a :=
  ⟨by decide, by decide, fun _ => rfl⟩

theorem witness_RetReturnsBehindTheCall :
    ∃ t, exec (.call (.lit 9)) (boot []) = .next t ∧ t.isFaulted = false ∧
      ({ sample [10] with stack := [2] } : State).stack = t.stack := ⟨_, rfl, rfl, rfl⟩

/-- The least divisor and the largest. -/
theorem witness_ArithmeticLaws : (1 : Word) ≠ 0 ∧ (32767 : Word) ≠ 0 := by decide

/-- A core that waits in `in`. -/
def waiting (lines : List (List Nat)) : State := { boot [20, 32768] with hold := .input, hostLines := lines }

theorem witness_InWaitsForALine :
    (AtInstr (waiting []) (.inp (.reg 0)) ∧ (waiting []).hold = .input ∧ (waiting []).inbuf = [] ∧
      (waiting []).hostLines = []) ∧
    AtInstr (waiting [[65]]) (.inp (.reg 0)) ∧ (waiting [[65]]).hostLines = [65] :: [] ∧
      ∃ u, Delivers (waiting [[65]]) 65 u :=
  ⟨⟨at_of rfl (by decide) (rest := [0, 0]) (by decide), rfl, rfl, rfl⟩,
    at_of rfl (by decide) (rest := [0, 0]) (by decide), rfl,
    _, .inr ⟨0, 0, [65], [], [10], ⟨rfl, fun _ => rfl⟩, rfl, ⟨rfl, rfl⟩, rfl⟩⟩

/-! ### Witnesses: the layer, the debugger, the start -/

theorem witness_DisabledLayerDoesNothing :
    (boot [6, 4]).run = .running ∧ (boot [6, 4]).params.debugEnable = false ∧
    ∃ t, step (boot [6, 4]) = .next t ∧ t.isFaulted = false := ⟨rfl, rfl, _, rfl, rfl⟩

/-- The core of program P4 at its second fetch of address 0, its slot holding the first rendering's instruction. -/
def modified : State := layered { boot [19, 66] with dcache := [(0, .out (.lit 65))] }

theorem witness_ChangedCodeIsDetected :
    (AtInstr modified (.out (.lit 66)) ∧ modified.params.debugEnable = true ∧ modified.hold = .none ∧
      modified.params.smcCheckEnable = true ∧ slotAt modified.dcache modified.pc.toNat = some (.out (.lit 65)) ∧
      render (.out (.lit 65)) ≠ render (.out (.lit 66))) ∧
    (AtInstr (layered (boot [21])) .noop ∧ slotAt (layered (boot [21])).dcache 0 = none) ∧
    (slotAt (layered { boot [21] with dcache := [(0, .noop)] }).dcache 0 = some .noop ∧
      Instr.wellFormed .noop = true ∧ render .noop = render .noop) ∧
    (boot [21]).params.smcCheckEnable = false :=
  ⟨⟨at_of rfl (by decide) (rest := [0, 0]) (by decide), rfl, rfl, rfl, rfl, by decide⟩,
    ⟨at_of rfl (by decide) (rest := [0, 0, 0]) (by decide), rfl⟩, ⟨rfl, by decide, rfl⟩, rfl⟩

theorem witness_CacheHoldsTheLastFetched :
    AtInstr (layered (boot [21])) .noop ∧ (layered (boot [21])).params.debugEnable = true ∧
    (layered (boot [21])).hold = .none ∧ ∃ t, step (layered (boot [21])) = .next t ∧ t.isFaulted = false :=
  ⟨at_of rfl (by decide) (rest := [0, 0, 0]) (by decide), rfl, rfl, _, rfl, rfl⟩

theorem witness_JumpDestinationsAreRecorded :
    (layered (sample [])).params.debugEnable = true ∧
    (Completes (.jmp (.lit 32767)) (layered (sample [])) ∧ Jumps (layered (sample [])) (.jmp (.lit 32767))) ∧
    (Completes (.jt (.reg 7) (.lit 5)) (layered (sample [])) ∧ Jumps (layered (sample [])) (.jt (.reg 7) (.lit 5))) ∧
    (Completes (.jf (.lit 0) (.lit 5)) (layered (sample [])) ∧ Jumps (layered (sample [])) (.jf (.lit 0) (.lit 5))) ∧
    (Completes .noop (layered (sample [])) ∧ ¬Jumps (layered (sample [])) .noop) :=
  ⟨rfl, ⟨⟨_, rfl, rfl⟩, trivial⟩, ⟨⟨_, rfl, rfl⟩, 88, reads_reg (layered (sample [])) 7, by decide⟩,
    ⟨⟨_, rfl, rfl⟩, reads_lit _ _⟩, ⟨_, rfl, rfl⟩, id⟩

/-- A core whose next instruction names the watched `r2`. -/
def watching (cs : List Command) : State :=
  layered { boot [1, 32769, 5] with watch := watchSet [1], commands := cs }

theorem witness_WatchpointFires :
    (AtInstr (watching []) (.set (.reg 1) (.lit 5)) ∧ (watching []).params.debugEnable = true ∧
      (watching []).hold = .none ∧ Unmodified (watching []) (.set (.reg 1) (.lit 5)) ∧
      NamesWatched (watching []) (.set (.reg 1) (.lit 5)) ∧ (watching []).commands = []) ∧
    (AtInstr (watching [.n 1]) (.set (.reg 1) (.lit 5)) ∧ (watching [.n 1]).commands = [.n (0 + 1)]) ∧
    (¬NamesWatched (watching []) (.set (.reg 0) (.lit 1)) ∧ (watching []).stepMode = false) :=
  ⟨⟨at_of rfl (by decide) (rest := [0]) (by decide), rfl, rfl, .inr (.inl rfl), ⟨1, by decide, by decide⟩, rfl⟩,
    ⟨at_of rfl (by decide) (rest := [0]) (by decide), rfl⟩, by unfold NamesWatched; decide, rfl⟩

/-- A core in single-step mode with commands to come. -/
def stepping (cs : List Command) : State := layered { boot [21] with stepMode := true, commands := cs }

theorem witness_OperatorPointPrompts :
    ((boot []).stepMode = false ∧ ({ stepping [] with stepSkip := 1 } : State).stepSkip ≠ 0) ∧
    ((stepping [.d, .n 0, .n 1, .r]).stepMode = true ∧ (stepping [.d, .n 0, .n 1, .r]).stepSkip = 0 ∧
      (∀ j, Command.n (j + 1) ∉ [Command.d, .n 0]) ∧
      (stepping [.d, .n 0, .n 1, .r]).commands = [.d, .n 0] ++ .n (0 + 1) :: [.r]) ∧
    (∀ j, Command.n (j + 1) ∉ (stepping [.d]).commands) ∧
    (AtInstr { stepping [] with hold := .operator } .noop ∧ (stepping []).stepMode = true ∧
      (stepping []).stepSkip = 0 ∧ (stepping []).commands = []) :=
  ⟨⟨rfl, by decide⟩, ⟨rfl, rfl, fun j => by simp, rfl⟩, fun j => by simp [stepping, layered],
    at_of rfl (by decide) (rest := [0, 0, 0]) (by decide), rfl, rfl, rfl⟩

theorem witness_CommandsDoWhatTheySay :
    8 ≤ 8 ∧ (∀ r ∈ [0, 7], r < 8) ∧ ∃ r ∈ [0, 8], 8 ≤ r := by decide

theorem witness_RenderingIsInjective :
    Instr.wellFormed (.set (.reg 0) (.lit 1)) = true ∧
    render (.set (.reg 0) (.lit 1)) = render (.set (.reg 0) (.lit 1)) := ⟨by decide, rfl⟩

/-- Words of every class and every arity. -/
theorem witness_RenderingIsTheCanonicalText :
    decode [9, 32768, 32767, 32776] = .ok (.add (.reg 0) (.lit 32767) (.invalid 32776), []) ∧
    decode [16, 65535, 32775] = .ok (.wmem (.invalid 65535) (.reg 7), []) ∧ decode [20, 0] = .ok (.inp (.lit 0), []) ∧
    decode [18] = .ok (.ret, []) := by decide

theorem witness_ExportListsTheCache : Kept busy := busy_kept

/-- The same core with and without the layer: it goes on, or holds at the operator point. -/
theorem witness_LayerNeverAltersAStep :
    ((boot [21]).run = .running ∧ (boot [21]).params.debugEnable = false ∧ SameCore (boot [21]) (layered (boot [21])) ∧
      (∀ r v, Command.rs r v ∉ (layered (boot [21])).commands) ∧
      ∀ i, AtInstr (layered (boot [21])) i → Unmodified (layered (boot [21])) i) ∧
    SameCore (boot [21]) (stepping []) ∧ ∀ i, AtInstr (stepping []) i → Unmodified (stepping []) i :=
  ⟨⟨rfl, rfl, ⟨rfl, rfl, rfl, rfl, rfl, rfl, rfl, rfl, Iff.rfl, rfl, rfl, rfl⟩, fun r v => by simp [layered, boot, State.reset],
      fun _ _ => .inr (.inl rfl)⟩,
    ⟨rfl, rfl, rfl, rfl, rfl, rfl, rfl, rfl, Iff.rfl, rfl, rfl, rfl⟩, fun _ _ => .inr (.inl rfl)⟩

/-- The same core with the layer on and its check off. -/
def quiet (s : State) : State := { s with params := { s.params with debugEnable := true } }

theorem witness_LayerNeverAltersARun :
    (boot [21]).params.debugEnable = false ∧ (quiet (boot [21])).params.debugEnable = true ∧
    (quiet (boot [21])).params.smcCheckEnable = false ∧ (quiet (boot [21])).stepMode = false ∧
    (quiet (boot [21])).watch = Vector.replicate 8 false ∧ SameCore (boot [21]) (quiet (boot [21])) ∧
    (boot [21]).isFaulted = false :=
  ⟨rfl, rfl, rfl, rfl, rfl, ⟨rfl, rfl, rfl, rfl, rfl, rfl, rfl, rfl, Iff.rfl, rfl, rfl, rfl⟩, rfl⟩

theorem witness_StartStateIsAsStated :
    State.reset = State.reset ∧
    ∃ s, launch { Params.initial with stepModeReset := true } [0x13, 0x00] [] [] [] = .next s := ⟨rfl, _, rfl⟩

/-- Memory of one cell: an image that fills it, an odd one, and one word too many. -/
theorem witness_ImageLoadsLittleEndian :
    let p : Params := { Params.initial with lastCell := 0 }
    ([0x34, 0x12] : List (BitVec 8)).length % 2 = 0 ∧ ([0x34, 0x12] : List (BitVec 8)).length / 2 ≤ p.memSize ∧
    2 * 0 + 1 < ([0x34, 0x12] : List (BitVec 8)).length ∧ ([0x34, 0x12] : List (BitVec 8)).length ≤ 2 * 1 ∧
    ([0x34] : List (BitVec 8)).length % 2 = 1 ∧ p.memSize < ([0, 0, 1, 0] : List (BitVec 8)).length / 2 := by decide

theorem witness_PatchesOverwriteInOrder :
    (∃ t, launch Params.initial [0x13, 0x00] [(0, 21)] [] [] = .next t) ∧ 32767 < Params.initial.memSize :=
  ⟨⟨_, rfl⟩, by decide⟩

end Sys2Proof.Tests
end

section
/-! PROOFS. The output stream and the parameters of the run over one step (10_state.md R25, R29). -/

namespace Sys2Proof.Machine

open Sys2Proof.Spec

/-! ### What holds of every answer of a handler -/

/-- Every next state that `r` answers satisfies `P`. -/
def Yields (r : Result) (P : State → Prop) : Prop := ∀ t, r = .next t → P t

theorem yields_next {P : State → Prop} {t : State} (h : P t) : Yields (.next t) P := by
  rintro _ ⟨⟩
  exact h

section
variable {P : State → Prop} {s : State} (fault : ∀ f, P (faultState f s))
include fault

theorem withRead_yields {o : Operand} {k : Word → Result} (hk : ∀ v, Yields (k v) P) :
    Yields (withRead o s k) P := by
  rcases withRead_cases o s k with ⟨v, -, e⟩ | ⟨c, -, e⟩ <;> rw [e]
  · exact hk v
  · exact yields_next (fault _)

theorem withWrite_yields {o : Operand} {val : Nat} {k : State → Result}
    (hk : ∀ d, Yields (k (s.setReg d (toWord val))) P) : Yields (withWrite o val s k) P := by
  rcases withWrite_cases o val s k with ⟨d, -, e⟩ | ⟨-, e⟩ <;> rw [e]
  · exact hk d
  · exact yields_next (fault _)

theorem withPop_yields {k : Cell → State → Result} (hk : ∀ v rest, Yields (k v { s with stack := rest }) P) :
    Yields (withPop s k) P := by
  rcases withPop_cases s k with ⟨v, rest, -, e⟩ | ⟨-, e⟩ <;> rw [e]
  · exact hk v rest
  · exact yields_next (fault _)

theorem withDataAddress_yields {addr : Word} {k : Nat → Result} (hk : ∀ a, Yields (k a) P) :
    Yields (withDataAddress addr s k) P := by
  rcases withDataAddress_cases addr s k with ⟨-, e⟩ | ⟨-, e⟩ <;> rw [e]
  · exact hk _
  · exact yields_next (fault _)

theorem binary_yields {f : Word → Word → Nat} {a b c : Operand}
    (hk : ∀ d v, Yields (continueAfter 3 (s.setReg d v)) P) : Yields (binary f a b c s) P :=
  withRead_yields fault fun _ => withRead_yields fault fun _ => withWrite_yields fault fun d => hk d _

end

/-! ### The output stream over one handler -/

/-- `t` has the parameters and the output stream of `s`. -/
def SameOutput (s t : State) : Prop := t.params = s.params ∧ t.outs = s.outs

theorem nextChar_sameOutput (s : State) : SameOutput s (nextChar s).2 := by
  obtain ⟨_, _, _, e, -⟩ := nextChar_frame s
  rw [e]
  exact ⟨rfl, rfl⟩

/-- Every instruction but `out` leaves the output stream alone, and so does a fault. -/
theorem exec_sameOutput {i : Instr} (hi : ∀ a, i ≠ .out a) (s : State) : Yields (exec i s) (SameOutput s) := by
  have fault : ∀ f, SameOutput s (faultState f s) := fun _ => ⟨rfl, rfl⟩
  cases i with
  | halt | noop => exact yields_next ⟨rfl, rfl⟩
  | push a | jmp a | call a => exact withRead_yields fault fun _ => yields_next ⟨rfl, rfl⟩
  | set a b | not a b =>
    exact withRead_yields fault fun _ => withWrite_yields fault fun _ => yields_next ⟨rfl, rfl⟩
  | eq a b c | gt a b c | add a b c | mult a b c | and a b c | or a b c =>
    exact binary_yields fault fun _ _ => yields_next ⟨rfl, rfl⟩
  | mod a b c =>
    refine withRead_yields fault fun _ => withRead_yields fault fun _ => ?_
    split
    · exact yields_next (fault _)
    · exact withWrite_yields fault fun _ => yields_next ⟨rfl, rfl⟩
  | jt a b =>
    refine withRead_yields fault fun _ => ?_
    split
    · exact withRead_yields fault fun _ => yields_next ⟨rfl, rfl⟩
    · exact yields_next ⟨rfl, rfl⟩
  | jf a b =>
    refine withRead_yields fault fun _ => ?_
    split
    · exact yields_next ⟨rfl, rfl⟩
    · exact withRead_yields fault fun _ => yields_next ⟨rfl, rfl⟩
  | rmem a b =>
    exact withRead_yields fault fun _ => withDataAddress_yields fault fun _ =>
      withWrite_yields fault fun _ => yields_next ⟨rfl, rfl⟩
  | wmem a b =>
    exact withRead_yields fault fun _ => withRead_yields fault fun _ =>
      withDataAddress_yields fault fun _ => yields_next ⟨rfl, rfl⟩
  | pop a =>
    simp only [exec, execPop]
    exact withPop_yields fault fun _ _ => withWrite_yields (fun _ => ⟨rfl, rfl⟩) fun _ => yields_next ⟨rfl, rfl⟩
  | ret => exact withPop_yields fault fun _ _ => yields_next ⟨rfl, rfl⟩
  | out a => exact absurd rfl (hi a)
  | inp a =>
    have taken := nextChar_sameOutput s
    simp only [exec, execInp]
    rcases h : nextChar s with ⟨_ | ch, u⟩ <;> rw [h] at taken
    · exact yields_next taken
    · exact withWrite_yields (fun _ => taken) fun _ => yields_next taken

/-- `out` emits one code and goes on, or faults with the output stream as it was (46_io.md R170). -/
theorem execOut_yields (a : Operand) (s : State) :
    Yields (execOut a s) fun t =>
      SameOutput s t ∨ t.params = s.params ∧ t.run = s.run ∧ ∃ c, t.outs = s.outs ++ [c] :=
  withRead_yields (fun _ => .inl ⟨rfl, rfl⟩) fun c => yields_next (.inr ⟨rfl, rfl, c, rfl⟩)

/-! ### The output stream over one step -/

theorem LayerFrame.sameOutput {s t : State} (h : LayerFrame s t) : SameOutput s t := by
  obtain ⟨hparams, -, -, -, -, -, houts, -⟩ := h.core
  exact ⟨hparams, houts⟩

theorem isFaulted_of_running {s : State} (h : s.run = .running) : s.isFaulted = false := by
  simp [State.isFaulted, h]

/-- The fetch of a RUNNING core inside memory finds the instruction its words decode to (40_execution_loop.md R82 to
R84). -/
theorem atInstr_of_fetch {s : State} {i : Instr} (hr : s.run = .running) (hm : s.pc.toNat < s.memSize)
    (h : fetch s = .ok i) : AtInstr s i := by
  unfold fetch at h
  split at h
  · next rest hd =>
    cases h
    exact ⟨hr, hm, rest, hd⟩
  all_goals cases h

/-- Only `out` adds to the output stream, one code, and then the run state is as it was (46_io.md R170, R171). -/
theorem exec_sameOutput_or_out {i : Instr} {s t : State} (h : exec i s = .next t) :
    SameOutput s t ∨
    t.params = s.params ∧ t.run = s.run ∧ (∃ c, t.outs = s.outs ++ [c]) ∧ ∃ a, i = .out a := by
  by_cases hi : ∃ a, i = .out a
  · obtain ⟨a, rfl⟩ := hi
    rcases execOut_yields a s t h with same | ⟨hparams, hrun, hout⟩
    · exact .inl same
    · exact .inr ⟨hparams, hrun, hout, a, rfl⟩
  · exact .inl (exec_sameOutput (not_exists.1 hi) s t h)

/-- A step leaves the output stream alone, or runs `out` without a fault. -/
theorem step_sameOutput_or_out {s t : State} (h : step s = .next t) :
    SameOutput s t ∨
    t.params = s.params ∧ t.isFaulted = false ∧ (∃ c, t.outs = s.outs ++ [c]) ∧ ∃ a, AtInstr s (.out a) := by
  cases hr : s.run with
  | halted _ =>
    simp only [step, hr] at h
    cases h
    exact .inl ⟨rfl, rfl⟩
  | faulted _ =>
    simp only [step, hr] at h
    cases h
  | running =>
    rcases step_cases hr h with ⟨-, rfl⟩ | ⟨-, f, -, rfl⟩ |
      ⟨hm, i, hf, ⟨f, -, -, rfl⟩ | ⟨u, -, -, hu, -, he⟩ | ⟨-, -, ht, -⟩⟩
    · exact .inl ⟨rfl, rfl⟩
    · exact .inl ⟨rfl, rfl⟩
    · exact .inl ⟨rfl, rfl⟩
    · obtain ⟨uparams, -, -, -, urun, -, uouts, -⟩ := hu.core
      rcases exec_sameOutput_or_out he with ⟨hparams, houts⟩ | ⟨hparams, hrun, ⟨c, houts⟩, a, rfl⟩
      · exact .inl ⟨hparams.trans uparams, houts.trans uouts⟩
      · exact .inr ⟨hparams.trans uparams, isFaulted_of_running (hrun.trans (urun.trans hr)),
          ⟨c, uouts ▸ houts⟩, a, atInstr_of_fetch hr hm hf⟩
    · exact .inl ht.sameOutput

/-- Settles O38, by what each handler and each stage of a step does to the output stream. -/
theorem outputOnlyGrows : Obligations.OutputOnlyGrows := by
  unfold Obligations.OutputOnlyGrows
  intro s t h
  rcases step_sameOutput_or_out h with ⟨hparams, houts⟩ | ⟨hparams, hfault, ⟨c, houts⟩, a, ha⟩
  · exact ⟨hparams, .inl houts⟩
  · exact ⟨hparams, .inr ⟨c, houts, a, ha, hfault⟩⟩

end Sys2Proof.Machine
end

section
/-! PROOFS. Which words are no opcode, and what the step that finds one answers (30_encoding.md R66, 60_exceptions.md
R221). -/

namespace Sys2Proof

/-- The opcode map has the numbers 0 to 21 and no other (30_encoding.md R65, R66). -/
theorem Instr.ofOpcode_eq_none_iff (op : Nat) (a b c : Operand) : Instr.ofOpcode op a b c = none ↔ 22 ≤ op := by
  constructor
  · intro h
    by_contra hlt
    interval_cases op <;> cases h
  · intro h
    obtain ⟨k, rfl⟩ := Nat.exists_eq_add_of_le' h
    rfl

/-- The decoder rejects an opcode word by that word alone, before it counts the words behind it (30_encoding.md R62,
R66). -/
theorem decode_unknownOpcode_iff (w : Cell) (rest : List Cell) :
    decode (w :: rest) = .error (.unknownOpcode w) ↔ 22 ≤ w.toNat := by
  rw [← Instr.ofOpcode_eq_none_iff w.toNat (.ofCell (rest.getD 0 0)) (.ofCell (rest.getD 1 0)) (.ofCell (rest.getD 2 0))]
  simp only [decode]
  split
  · next h => exact iff_of_true rfl h
  · next i h => split <;> simp only [h, Except.error.injEq, reduceCtorEq]

end Sys2Proof

namespace Sys2Proof.Machine

open Sys2Proof.Spec

/-- Inside memory, the first of the words from an address on is the cell at that address. -/
theorem State.cellsFrom_succ {s : State} {a : Nat} (h : a < s.memSize) (n : Nat) :
    s.cellsFrom a (n + 1) = s.readCell a :: s.cellsFrom (a + 1) n := by
  have hlen : min (n + 1) (s.memSize - a) = min n (s.memSize - (a + 1)) + 1 := by omega
  simp only [State.cellsFrom, hlen, List.range_succ_eq_map, List.map_cons, List.map_map, Nat.add_zero]
  congr 2
  funext k
  exact congrArg s.readCell (Nat.add_right_comm a k 1)

/-- The fetch of an opcode word above 21 reports up to five words from pc on (60_exceptions.md R221). -/
theorem fetch_unknownOpcode {s : State} (hm : s.pc.toNat < s.memSize) (hw : 22 ≤ (s.readCell s.pc.toNat).toNat) :
    fetch s = .error (.unknownOpcode (s.cellsFrom s.pc.toNat 5)) := by
  simp only [fetch, maxWords, State.cellsFrom_succ hm 3, (decode_unknownOpcode_iff _ _).2 hw]

/-- What the fetch finds wrong, the step raises (40_execution_loop.md R80). -/
theorem step_raises_of_fetch_error {s : State} {f : FaultInfo} (hr : s.run = .running) (hm : s.pc.toNat < s.memSize)
    (h : fetch s = .error f) : Raises (step s) s f := by
  have hstep : step s = .next (faultState f s) := by
    simp only [step, hr, offEnd, decide_eq_true_eq, if_neg (Nat.not_le.2 hm), h, raise_eq]
  exact ⟨_, hstep, rfl, rfl, rfl⟩

/-- Settles O27: the opcode map ends at 21, and the decoder, the fetch and the step each hand its verdict on. -/
theorem onlyTwentyTwoOpcodes : Obligations.OnlyTwentyTwoOpcodes := by
  unfold Obligations.OnlyTwentyTwoOpcodes
  refine ⟨decode_unknownOpcode_iff, fun s hr hm hw => ?_⟩
  exact ⟨_, step_raises_of_fetch_error hr hm (fetch_unknownOpcode hm hw)⟩

end Sys2Proof.Machine
end

section
/-! PROOFS. The operand resolver on raw operand words: the read path and the write path (40_execution_loop.md R88,
R89). -/

namespace Sys2Proof

/-- The class of a word keeps the word (30_encoding.md R63). -/
theorem toCell_ofCell (v : Cell) : (Operand.ofCell v).toCell = v := by
  apply BitVec.eq_of_toNat_eq
  rcases ofCell_cases v with ⟨h, e⟩ | ⟨i, h, e⟩ | ⟨-, e⟩ <;> rw [e]
  · rw [toCell_lit_toNat, BitVec.toNat_setWidth, Nat.mod_eq_of_lt h]
  · rw [toCell_reg_toNat, h]
  · rfl

/-- A word outside the register range is in another class (30_encoding.md R63). -/
theorem ofCell_ne_reg {v : Cell} (h : v.toNat < 32768 ∨ 32776 ≤ v.toNat) (d : RegIndex) :
    Operand.ofCell v ≠ .reg d := by
  rcases h with h | h
  · simp [ofCell_lit h]
  · simp [ofCell_invalid h]

end Sys2Proof

namespace Sys2Proof.Machine

open Sys2Proof.Spec

@[simp] theorem resolveWrite_reg (d : RegIndex) (val : Nat) (s : State) :
    resolveWrite (.reg d) val s = .ok (s.setReg d (toWord val)) := rfl

/-- Only a register can be written (40_execution_loop.md R89). -/
theorem resolveWrite_notRegister {o : Operand} (h : NotRegister o) (val : Nat) (s : State) :
    resolveWrite o val s = .error (.invalidWriteTarget o.toCell) := by
  cases o with
  | reg d => exact absurd rfl (h d)
  | lit v => rfl
  | invalid c => rfl

theorem setReg_regs_same (s : State) (i : RegIndex) (v : Word) : (s.setReg i v).regs[i] = v := by
  rw [← State.reg_eq, setReg_reg, if_pos rfl]

theorem setReg_regs_other (s : State) {i j : RegIndex} (v : Word) (h : j ≠ i) :
    (s.setReg i v).regs[j] = s.regs[j] := by
  rw [← State.reg_eq, setReg_reg, if_neg h.symm, State.reg_eq]

/-- Settles O22, range by range: the word's class, then what the read path answers for it. -/
theorem readPathResolves : Obligations.ReadPathResolves := by
  unfold Obligations.ReadPathResolves
  intro s v
  refine ⟨fun h => ⟨v.setWidth 15, ?_, ?_⟩, fun i h => ?_, fun h => ?_⟩
  · rw [ofCell_lit h, resolveRead_lit]
  · rw [BitVec.toNat_setWidth, Nat.mod_eq_of_lt h]
  · rw [ofCell_reg h, resolveRead_reg]
  · rw [ofCell_invalid h, resolveRead_invalid]

/-- Settles O23: a register word writes that register reduced, any other word is a fault that reports it. -/
theorem writePathReduces : Obligations.WritePathReduces := by
  unfold Obligations.WritePathReduces
  intro s v val
  refine ⟨fun i h => ⟨s.setReg i (toWord val), ?_, ?_, fun j hj => setReg_regs_other s _ hj, rfl⟩, fun h => ?_⟩
  · rw [ofCell_reg h, resolveWrite_reg]
  · rw [setReg_regs_same, toNat_toWord]
  · rw [resolveWrite_notRegister (ofCell_ne_reg h), toCell_ofCell]

end Sys2Proof.Machine
end

section
/-! PROOFS. The shared operations on resolved operands, as handlers that finish or raise, and `set`, `push` and `pop` built
from them (41_move_stack.md R100 to R102). -/

namespace Sys2Proof.Machine

open Sys2Proof.Spec

/-! ### What an operation answers for a good operand -/

theorem resolveRead_of_readsAs {s : State} {o : Operand} {v : Word} (h : ReadsAs s o v) : resolveRead o s = .ok v := by
  rcases h with rfl | ⟨i, rfl, rfl⟩
  · exact resolveRead_lit v s
  · exact resolveRead_reg i s

theorem withRead_of_readsAs {s : State} {o : Operand} {v : Word} (h : ReadsAs s o v) (k : Word → Result) :
    withRead o s k = k v :=
  withRead_ok (resolveRead_of_readsAs h) k

theorem withPop_cons {s : State} {v : Cell} {rest : List Cell} (h : s.stack = v :: rest) (k : Cell → State → Result) :
    withPop s k = k v { s with stack := rest } := by
  simp only [withPop, h]

/-- The write path's own reduction is the one that comes with 15 bits (40_execution_loop.md R89). -/
theorem toWord_eq_ofNat (n : Nat) : toWord n = BitVec.ofNat 15 n := by
  apply BitVec.eq_of_toNat_eq
  rw [toNat_toWord, BitVec.toNat_ofNat]

/-! ### What an operation raises -/

/-- A fault raised after the handler has changed neither pc nor the output stream is a fault of the state the handler
began with. -/
theorem raises_faultState {s t : State} (hpc : t.pc = s.pc) (houts : t.outs = s.outs) (f : FaultInfo) :
    Raises (.next (faultState f t)) s f :=
  ⟨_, rfl, by rw [faultState_run, hpc], houts, hpc⟩

theorem withRead_invalid_raises (c : Cell) (s : State) (k : Word → Result) :
    Raises (withRead (.invalid c) s k) s (.invalidAddressingMode c) :=
  raises_faultState rfl rfl _

theorem withWrite_raises {o : Operand} (h : NotRegister o) {s t : State} (hpc : t.pc = s.pc) (houts : t.outs = s.outs)
    (val : Nat) (k : State → Result) : Raises (withWrite o val t k) s (.invalidWriteTarget o.toCell) := by
  rw [withWrite_bad h]
  exact raises_faultState hpc houts _

theorem withPop_nil_raises {s : State} (h : s.stack = []) (k : Cell → State → Result) :
    Raises (withPop s k) s .stackUnderflow := by
  simp only [withPop, h]
  exact raises_faultState rfl rfl _

/-! ### The instructions -/

/-- A handler that reads `b` and writes the result to `a` has the meaning of a two-operand instruction. -/
theorem twoOperands_of_handler {mk : Operand → Operand → Instr} {op : Cell} {res : Word → Nat}
    (hexec : ∀ a b s, exec (mk a b) s = withRead b s fun v => withWrite a (res v) s (continueAfter 2))
    (hencode : ∀ a b, encode (mk a b) = [op, a.toCell, b.toCell]) : TwoOperands mk op res := by
  intro s a b
  rw [hexec]
  refine ⟨?_, ?_, ?_, hencode a b⟩
  · rintro d vb rfl hb
    rw [withRead_of_readsAs hb, withWrite_reg, toWord_eq_ofNat]
    rfl
  · rintro w rfl
    exact withRead_invalid_raises w s _
  · intro vb hb ha
    rw [withRead_of_readsAs hb]
    exact withWrite_raises ha rfl rfl _ _

/-- Settles O2: `set` is the two-operand handler whose result is the value it read. -/
theorem setCopiesAValue : Obligations.SetCopiesAValue :=
  twoOperands_of_handler (fun _ _ _ => rfl) fun _ _ => rfl

theorem exec_push (a : Operand) (s : State) :
    exec (.push a) s = withRead a s fun v => continueAfter 1 (s.push (v.setWidth 16)) := rfl

theorem exec_pop (a : Operand) (s : State) :
    exec (.pop a) s = withPop s fun v t => withWrite a v.toNat t (continueAfter 1) := rfl

/-- Settles O3: `push` reads and goes on; `pop` takes the top first, so an empty stack is found before the destination, and
a bad destination is found with the top gone. -/
theorem pushAndPopWorkOnTheTop : Obligations.PushAndPopWorkOnTheTop := by
  unfold Obligations.PushAndPopWorkOnTheTop
  intro s a
  rw [exec_push, exec_pop]
  refine ⟨?_, ?_, rfl, ?_, fun hempty => withPop_nil_raises hempty _, ?_, rfl⟩
  · intro v ha
    rw [withRead_of_readsAs ha]
    rfl
  · rintro w rfl
    exact withRead_invalid_raises w s _
  · rintro d v rest rfl hstack
    rw [withPop_cons hstack, withWrite_reg]
    rfl
  · intro hne ha
    obtain ⟨v, rest, hstack⟩ := List.exists_cons_of_ne_nil hne
    rw [withPop_cons hstack]
    exact withWrite_raises ha rfl rfl _ _

end Sys2Proof.Machine
end

section
/-! PROOFS. Three-operand instructions built from the shared handler, and the comparisons `eq` and `gt` among them
(42_compare.md R110, R111). -/

namespace Sys2Proof.Machine

open Sys2Proof.Spec

theorem binary_of_readsAs {s : State} {b c : Operand} {vb vc : Word} (hb : ReadsAs s b vb) (hc : ReadsAs s c vc)
    (f : Word → Word → Nat) (a : Operand) :
    binary f a b c s = withWrite a (f vb vc) s (continueAfter 3) := by
  rw [binary, withRead_of_readsAs hb, withRead_of_readsAs hc]

/-- The shared handler for the number `f vb vc` has the meaning of a three-operand instruction: it reads `b`, then `c`,
and only then looks at the destination, which fixes the order of the faults. -/
theorem threeOperands_of_binary {mk : Operand → Operand → Operand → Instr} {op : Cell} {f res : Word → Word → Nat}
    (hexec : ∀ a b c s, exec (mk a b c) s = binary f a b c s) (hres : ∀ vb vc, f vb vc = res vb vc)
    (hencode : ∀ a b c, encode (mk a b c) = [op, a.toCell, b.toCell, c.toCell]) : ThreeOperands mk op res := by
  obtain rfl : f = res := funext₂ hres
  intro s a b c
  rw [hexec]
  refine ⟨?_, ?_, ?_, ?_, hencode a b c⟩
  · rintro d vb vc rfl hb hc
    rw [binary_of_readsAs hb hc, withWrite_reg, toWord_eq_ofNat]
    rfl
  · rintro w rfl
    exact withRead_invalid_raises w s _
  · rintro vb w hb rfl
    rw [binary, withRead_of_readsAs hb]
    exact withRead_invalid_raises w s _
  · intro vb vc hb hc ha
    rw [binary_of_readsAs hb hc]
    exact withWrite_raises ha rfl rfl _ _

/-- A comparison's number, for a decided proposition (42_compare.md R110, R111). -/
theorem truthValue_decide (p : Prop) [Decidable p] : truthValue (decide p) = if p then 1 else 0 := by
  simp only [truthValue, decide_eq_true_eq]

/-- Settles O4: both comparisons are the three-operand handler, and the number each writes is the truth value of its test
on the two values read. -/
theorem comparisonsWriteOneOrZero : Obligations.ComparisonsWriteOneOrZero := by
  unfold Obligations.ComparisonsWriteOneOrZero
  constructor
  · exact threeOperands_of_binary (fun _ _ _ _ => rfl) (fun vb vc => truthValue_decide (vb = vc)) fun _ _ _ => rfl
  · exact threeOperands_of_binary (fun _ _ _ _ => rfl) (fun vb vc => truthValue_decide (vb.toNat > vc.toNat))
      fun _ _ _ => rfl

end Sys2Proof.Machine
end

section
/-! PROOFS. `halt`, `noop`, `jmp` and `ret` (43_control_transfer.md R120, R121, R125, R126), with the two facts about a step
that their statements need: the halt off the end of memory, and the cache entry made before the handler runs. -/

namespace Sys2Proof.Machine

open Sys2Proof.Spec

/-! ### The step at the end of memory -/

/-- MEM_SIZE is at most 32768 (92_eei_decisions.md D1). -/
theorem State.memSize_le (s : State) : s.memSize ≤ 32768 := s.params.lastCell.isLt

/-- The end-of-memory test comes before any fetch (40_execution_loop.md R81). -/
theorem step_of_offEnd {s : State} (hr : s.run = .running) (hm : s.memSize ≤ s.pc.toNat) :
    step s = .next { s with run := .halted .offEnd } := by
  simp only [step, hr, offEnd, decide_eq_true_eq, if_pos hm]

/-! ### The step at an instruction -/

theorem fetch_of_atInstr {s : State} {i : Instr} (h : AtInstr s i) : fetch s = .ok i := by
  obtain ⟨-, -, rest, hd⟩ := h
  simp only [fetch, maxWords, hd]

/-- Stage 5 decides what becomes of an instruction at pc: its handler runs, or the core holds, or a fault has ended the
iteration (40_execution_loop.md R80). -/
theorem step_of_atInstr {s : State} {i : Instr} (h : AtInstr s i) :
    (∀ u, stage5 i s = .proceed u → step s = exec i u) ∧ (∀ u, stage5 i s = .held u → step s = .next u) ∧
    ∀ u, stage5 i s = .stopped u → step s = .next u := by
  have hfetch := fetch_of_atInstr h
  obtain ⟨hr, hm, -⟩ := h
  refine ⟨fun u hu => ?_, fun u hu => ?_, fun u hu => ?_⟩ <;>
    simp only [step, hr, offEnd, decide_eq_true_eq, if_neg (Nat.not_le.2 hm), hfetch, hu]

/-! ### The cache entry is made before the handler runs -/

/-- An empty slot and an unchanged one pass the self-modification check (47_disassembly_cache.md R194). -/
theorem selfModification_unchanged {s : State} {i : Instr}
    (h : slotAt s.dcache s.pc.toNat = none ∨ slotAt s.dcache s.pc.toNat = some i) : selfModification i s = none := by
  rcases h with h | h <;> simp [selfModification, h]

/-- Stage 5 of an iteration that did not hold before: past the check, the instruction is cached, whether the operator point
then lets it execute or holds it (47_disassembly_cache.md R191, R195). -/
theorem stage5_caches {s : State} {i : Instr} (hd : s.params.debugEnable = true) (hh : s.hold = .none)
    (hc : selfModification i s = none) :
    ∃ u, (stage5 i s = .proceed u ∨ stage5 i s = .held u) ∧ u.dcache = fillSlot s.dcache s.pc.toNat i := by
  have hstage : stage5 i s = operatorPoint (watchCheck i (cacheInstr i s)) := by
    simp only [stage5, hd, if_true, hh, instrument, hc]
  have hcache : (watchCheck i (cacheInstr i s)).dcache = fillSlot s.dcache s.pc.toNat i := by
    obtain ⟨_, _, _, e⟩ := watchCheck_frame i (cacheInstr i s)
    rw [e]
    rfl
  rw [hstage]
  rcases operatorPoint_cases (watchCheck i (cacheInstr i s)) with ⟨u, e, -, hu, -⟩ | ⟨u, e, -, hu, -⟩
  · exact ⟨u, .inl e, hu.trans hcache⟩
  · exact ⟨u, .inr e, hu.trans hcache⟩

/-- An instruction whose handler leaves the cache alone is found cached after its step. -/
theorem cachedBeforeItExecutes_of_exec {i : Instr} (h : ∀ u, ∃ t, exec i u = .next t ∧ t.dcache = u.dcache) :
    CachedBeforeItExecutes i := by
  intro s hat hd hh hslot
  obtain ⟨hproceed, hheld, -⟩ := step_of_atInstr hat
  obtain ⟨u, hstage, hu⟩ := stage5_caches hd hh (selfModification_unchanged hslot)
  have hfilled : slotAt u.dcache s.pc.toNat = some i := by rw [hu, slotAt_fillSlot_same]
  rcases hstage with hstage | hstage
  · obtain ⟨t, ht, htu⟩ := h u
    exact ⟨t, (hproceed u hstage).trans ht, by rw [htu, hfilled]⟩
  · exact ⟨u, hheld u hstage, hfilled⟩

/-! ### The instructions -/

theorem exec_halt (s : State) : exec .halt s = .next { s with run := .halted .explicit } := rfl

theorem exec_noop (s : State) : exec .noop s = .next { s with pc := s.pc + 1 } := rfl

/-- Settles O1: each handler's answer; both leave the cache to stage 5; and behind the last cell pc is MEM_SIZE, which 16
bits can hold. -/
theorem haltStopsAndNoopOnlyAdvances : Obligations.HaltStopsAndNoopOnlyAdvances := by
  unfold Obligations.HaltStopsAndNoopOnlyAdvances
  refine ⟨exec_halt, rfl, fun _ => rfl, ?_, exec_noop, rfl, ?_, ?_⟩
  · exact cachedBeforeItExecutes_of_exec fun u => ⟨_, exec_halt u, rfl⟩
  · exact cachedBeforeItExecutes_of_exec fun u => ⟨_, exec_noop u, rfl⟩
  · intro s hr hlast
    have hpc : (s.pc + 1).toNat = s.memSize := by
      have hle := s.memSize_le
      bv_omega
    exact ⟨_, exec_noop s, step_of_offEnd hr hpc.ge⟩

theorem exec_jmp (a : Operand) (s : State) :
    exec (.jmp a) s = withRead a s fun t => .next (jumped s (t.setWidth 16)) := rfl

theorem exec_ret (s : State) : exec .ret s = withPop s fun v t => .next (jumped t v) := rfl

/-- Settles O5: `jmp` reads its operand and jumps to the value, or the read raises the fault. -/
theorem jmpGoesToItsTarget : Obligations.JmpGoesToItsTarget := by
  unfold Obligations.JmpGoesToItsTarget
  intro s a
  rw [exec_jmp]
  refine ⟨fun t ha => withRead_of_readsAs ha _, ?_, rfl⟩
  rintro w rfl
  exact withRead_invalid_raises w s _

theorem exec_ret_cons {s : State} {v : Cell} {rest : List Cell} (h : s.stack = v :: rest) :
    exec .ret s = .next (jumped { s with stack := rest } v) := by
  rw [exec_ret, withPop_cons h]

/-- Settles O14: `ret` pops and jumps to the element as it is, or the pop raises the fault; the element is not checked
before the next iteration's end-of-memory test. -/
theorem retGoesToTheTop : Obligations.RetGoesToTheTop := by
  unfold Obligations.RetGoesToTheTop
  refine ⟨fun s v rest h => exec_ret_cons h, fun s h => ?_, rfl, fun s v rest h hr hv => ?_⟩
  · rw [exec_ret]
    exact withPop_nil_raises h _
  · exact ⟨_, exec_ret_cons h, step_of_offEnd hr hv⟩

end Sys2Proof.Machine
end

section
/-! PROOFS. The arithmetic and logic instructions that cannot fault on their values: `add`, `mult`, `and`, `or` on the
shared three-operand handler and `not` on the two-operand one (44_alu.md R141, R142, R144 to R146). -/

namespace Sys2Proof.Machine

open Sys2Proof.Spec

/-! ### The handlers -/

theorem exec_add (a b c : Operand) (s : State) : exec (.add a b c) s = binary aluAdd a b c s := rfl

theorem exec_mult (a b c : Operand) (s : State) : exec (.mult a b c) s = binary aluMult a b c s := rfl

theorem exec_and (a b c : Operand) (s : State) : exec (.and a b c) s = binary aluAnd a b c s := rfl

theorem exec_or (a b c : Operand) (s : State) : exec (.or a b c) s = binary aluOr a b c s := rfl

theorem exec_not (a b : Operand) (s : State) :
    exec (.not a b) s = withRead b s fun vb => withWrite a (aluNot vb) s (continueAfter 2) := rfl

/-! ### The numbers they write -/

theorem aluAdd_eq (vb vc : Word) : aluAdd vb vc = (vb.toNat + vc.toNat) % 32768 := rfl

theorem aluMult_eq (vb vc : Word) : aluMult vb vc = (vb.toNat * vc.toNat) % 32768 := rfl

/-- The and of two Words is the and of their numbers: no bit beyond the fifteen comes in (44_alu.md R144). -/
theorem aluAnd_eq (vb vc : Word) : aluAnd vb vc = vb.toNat &&& vc.toNat := BitVec.toNat_and vb vc

/-- The or of two Words is the or of their numbers: no bit beyond the fifteen comes in (44_alu.md R145). -/
theorem aluOr_eq (vb vc : Word) : aluOr vb vc = vb.toNat ||| vc.toNat := BitVec.toNat_or vb vc

/-! ### The obligations -/

/-- Settles O7: both are the three-operand handler, and the number each writes is already reduced. -/
theorem addAndMultAreModular : Obligations.AddAndMultAreModular := by
  unfold Obligations.AddAndMultAreModular
  constructor
  · exact threeOperands_of_binary exec_add aluAdd_eq fun _ _ _ => rfl
  · exact threeOperands_of_binary exec_mult aluMult_eq fun _ _ _ => rfl

/-- Settles O9: both are the three-operand handler, and an operation on Words is the same operation on their numbers. -/
theorem andAndOrAreBitwise : Obligations.AndAndOrAreBitwise := by
  unfold Obligations.AndAndOrAreBitwise
  constructor
  · exact threeOperands_of_binary exec_and aluAnd_eq fun _ _ _ => rfl
  · exact threeOperands_of_binary exec_or aluOr_eq fun _ _ _ => rfl

/-- Settles O10: `not` is the two-operand handler whose result is `aluNot` of the value it read. -/
theorem notIsTheFifteenBitComplement : Obligations.NotIsTheFifteenBitComplement :=
  twoOperands_of_handler exec_not fun _ _ => rfl

end Sys2Proof.Machine
end

section
/-! PROOFS. `out` (46_io.md R170). -/

namespace Sys2Proof.Machine

open Sys2Proof.Spec

theorem exec_out (a : Operand) (s : State) :
    exec (.out a) s = withRead a s fun c => continueAfter 1 (s.emit c) := rfl

/-- Settles O15: `out` reads its operand, emits the value and goes on, or the read raises the fault before anything is
emitted. -/
theorem outEmitsOneCharacter : Obligations.OutEmitsOneCharacter := by
  unfold Obligations.OutEmitsOneCharacter
  intro s a
  rw [exec_out]
  refine ⟨?_, ?_, rfl⟩
  · intro c ha
    rw [withRead_of_readsAs ha, continueAfter_eq]
    rfl
  · rintro w rfl
    exact withRead_invalid_raises w s _

end Sys2Proof.Machine
end

section
/-! PROOFS. The rendering tells well-formed instructions apart, and the decoder answers only such instructions
(30_encoding.md R63, R65, R71; 47_disassembly_cache.md R192, R193, R196). -/

namespace Sys2Proof

/-! ### Instructions and operands as terms -/

/-- The opcode map gives an instruction back from its opcode and its own operands (30_encoding.md R65). -/
theorem Instr.ofOpcode_opcode_operands (i : Instr) (x : Operand) :
    Instr.ofOpcode i.opcode (i.operands.getD 0 x) (i.operands.getD 1 x) (i.operands.getD 2 x) = some i := by
  cases i <;> rfl

theorem Instr.eq_of_opcode_operands {i j : Instr} (hop : i.opcode = j.opcode) (hargs : i.operands = j.operands) :
    i = j := by
  have hi := i.ofOpcode_opcode_operands (.lit 0)
  rw [hop, hargs, j.ofOpcode_opcode_operands] at hi
  exact (Option.some.inj hi).symm

/-- An instruction of the opcode map has no operands but those it was given (30_encoding.md R65). -/
theorem Instr.wellFormed_of_ofOpcode {op : Nat} {a b c : Operand} {i : Instr} (ha : a.wellFormed = true)
    (hb : b.wellFormed = true) (hc : c.wellFormed = true) (h : Instr.ofOpcode op a b c = some i) :
    i.wellFormed = true := by
  unfold Instr.ofOpcode at h
  split at h <;> cases h <;> simp [Instr.wellFormed, Instr.operands, ha, hb, hc]

/-- The decoder's operands are classes of words, so an `invalid` among them holds a word of that class (30_encoding.md
R63). -/
theorem decode_wellFormed {ws rest : List Cell} {i : Instr} (h : decode ws = .ok (i, rest)) : i.wellFormed = true := by
  cases ws with
  | nil => cases h
  | cons w0 ws =>
    simp only [decode] at h
    split at h
    · cases h
    · next j hj =>
      split at h <;> cases h
      exact Instr.wellFormed_of_ofOpcode (ofCell_wellFormed _) (ofCell_wellFormed _) (ofCell_wellFormed _) hj

/-- A well-formed operand is the class of its word (30_encoding.md R63). -/
theorem ofCell_toCell {o : Operand} (h : o.wellFormed = true) : Operand.ofCell o.toCell = o := by
  cases o with
  | lit v =>
    rw [ofCell_lit (by rw [toCell_lit_toNat]; exact v.isLt)]
    exact congrArg Operand.lit (BitVec.setWidth_setWidth_of_le v (by decide))
  | reg i => exact ofCell_reg (toCell_reg_toNat i)
  | invalid c => exact ofCell_invalid (of_decide_eq_true h)

/-- A well-formed instruction's operands are the classes of its operand words (30_encoding.md R63). -/
theorem Instr.map_ofCell_toCell {i : Instr} (h : i.wellFormed = true) :
    (i.operands.map Operand.toCell).map Operand.ofCell = i.operands := by
  rw [List.map_map]
  exact (List.map_congr_left fun o ho => ofCell_toCell (List.all_eq_true.1 h o ho)).trans (List.map_id' _)

end Sys2Proof

namespace Sys2Proof.Machine

open Sys2Proof.Spec

/-! ### The words of a rendering -/

/-- The text of an operand is the text of its word (47_disassembly_cache.md R193). -/
theorem renderOperand_eq_operandText {o : Operand} (h : o.wellFormed = true) :
    renderOperand o = operandText o.toCell := by
  cases o with
  | lit v =>
    have hv := v.isLt
    rw [operandText, toCell_lit_toNat, if_neg (by omega)]
    rfl
  | reg i =>
    have hi := i.isLt
    rw [operandText, toCell_reg_toNat, if_pos (by omega), show 32768 + i.val - 32767 = i.val + 1 by omega]
    rfl
  | invalid c =>
    have hc : 32776 ≤ c.toNat := of_decide_eq_true h
    exact (if_neg (by simp only [Operand.toCell]; omega)).symm

theorem isDigit_of_mem_repr {n : Nat} {c : Char} (h : c ∈ (Nat.repr n).toList) : c.isDigit = true := by
  rw [Nat.repr_eq_ofList_toDigits, String.toList_ofList] at h
  exact Nat.isDigit_of_mem_toDigits (by decide) (by decide) h

/-- The letter of a register's text is in no decimal. -/
theorem r_append_ne_repr (t : String) (n : Nat) : "r" ++ t ≠ Nat.repr n := by
  intro h
  have hr : 'r' ∈ (Nat.repr n).toList := by simp [← h]
  exact absurd (isDigit_of_mem_repr hr) (by decide)

/-- Two words have the same text only when they are the same word (47_disassembly_cache.md R193). -/
theorem operandText_injective : Function.Injective operandText := by
  intro v w h
  apply BitVec.eq_of_toNat_eq
  unfold operandText at h
  split at h <;> split at h
  · have hnum := Nat.repr_inj.1 ((String.append_right_inj "r").1 h)
    omega
  · exact absurd h (r_append_ne_repr _ _)
  · exact absurd h.symm (r_append_ne_repr _ _)
  · exact Nat.repr_inj.1 h

theorem space_not_mem_operandText (v : Cell) : ' ' ∉ (operandText v).toList := by
  have hrepr (n : Nat) : ' ' ∉ (Nat.repr n).toList := fun h => absurd (isDigit_of_mem_repr h) (by decide)
  unfold operandText
  split
  · rw [String.toList_append, List.mem_append, not_or]
    exact ⟨by decide, hrepr _⟩
  · exact hrepr _

/-- The mnemonics stand in the opcode map's order (30_encoding.md R65). -/
theorem mnemonics_getElem?_opcode (i : Instr) : mnemonics[i.opcode]? = some (mnemonicOf i) := by
  cases i <;> rfl

/-- No mnemonic stands for two opcodes (30_encoding.md R65). -/
theorem opcode_eq_of_mnemonicOf {i j : Instr} (h : mnemonicOf i = mnemonicOf j) : i.opcode = j.opcode := by
  have hi := mnemonics_getElem?_opcode i
  have hlt : i.opcode < mnemonics.length := (List.getElem?_eq_some_iff.1 hi).1
  exact (List.getElem?_inj hlt (by decide)).1 (by rw [hi, mnemonics_getElem?_opcode, h])

theorem space_not_mem_mnemonicOf (i : Instr) : ' ' ∉ (mnemonicOf i).toList := by
  have hall : ∀ m ∈ mnemonics, ' ' ∉ m.toList := by decide
  exact hall _ (List.mem_of_getElem? (mnemonics_getElem?_opcode i))

/-! ### The rendering as its words with spaces between them -/

/-- The words of the text of an instruction: its mnemonic and its operands' texts. -/
def renderWords (i : Instr) : List String := mnemonicOf i :: (i.operands.map Operand.toCell).map operandText

theorem space_not_mem_renderWords (i : Instr) : ∀ w ∈ renderWords i, ' ' ∉ w.toList := by
  intro w hw
  rcases List.mem_cons.1 hw with rfl | hw
  · exact space_not_mem_mnemonicOf i
  · obtain ⟨v, -, rfl⟩ := List.mem_map.1 hw
    exact space_not_mem_operandText v

theorem foldl_space_eq_intercalate (f : Operand → String) (ops : List Operand) (text : String) :
    ops.foldl (fun t o => t ++ " " ++ f o) text = " ".intercalate (text :: ops.map f) := by
  induction ops generalizing text with
  | nil => simp
  | cons o ops ih =>
    rw [List.foldl_cons, ih, String.intercalate_cons_append, List.map_cons, String.intercalate_cons_cons]

theorem render_eq_intercalate {i : Instr} (h : i.wellFormed = true) : render i = " ".intercalate (renderWords i) := by
  have htexts : i.operands.map renderOperand = (i.operands.map Operand.toCell).map operandText := by
    rw [List.map_map]
    exact List.map_congr_left fun o ho => renderOperand_eq_operandText (List.all_eq_true.1 h o ho)
  rw [render, foldl_space_eq_intercalate, htexts, renderWords]

/-- Words without spaces can be read back from their text. -/
theorem intercalate_space_inj {a b : String} {l m : List String} (hl : ∀ w ∈ a :: l, ' ' ∉ w.toList)
    (hm : ∀ w ∈ b :: m, ' ' ∉ w.toList) (h : " ".intercalate (a :: l) = " ".intercalate (b :: m)) :
    a :: l = b :: m := by
  rw [show " " = String.singleton ' ' from rfl] at h
  have hsplit := String.toList_split_intercalate hl
  rw [h, String.toList_split_intercalate hm] at hsplit
  exact hsplit.symm

/-- Well-formed instructions with one text are one instruction (47_disassembly_cache.md R196): the text's first word
gives the opcode and the others the operand words. -/
theorem eq_of_render_eq {i j : Instr} (hi : i.wellFormed = true) (hj : j.wellFormed = true)
    (h : render i = render j) : i = j := by
  rw [render_eq_intercalate hi, render_eq_intercalate hj] at h
  have hwords : renderWords i = renderWords j :=
    intercalate_space_inj (space_not_mem_renderWords i) (space_not_mem_renderWords j) h
  obtain ⟨hmnemonic, htexts⟩ := List.cons.inj hwords
  have hcells : i.operands.map Operand.toCell = j.operands.map Operand.toCell :=
    List.map_injective_iff.2 operandText_injective htexts
  refine Instr.eq_of_opcode_operands (opcode_eq_of_mnemonicOf hmnemonic) ?_
  rw [← Instr.map_ofCell_toCell hi, hcells, Instr.map_ofCell_toCell hj]

end Sys2Proof.Machine
end

section
/-! PROOFS. The self-modification check of stage 5 (47_disassembly_cache.md R194, R195). -/

namespace Sys2Proof.Machine

open Sys2Proof.Spec

theorem wellFormed_of_atInstr {s : State} {i : Instr} (h : AtInstr s i) : i.wellFormed = true := by
  obtain ⟨-, -, _, hd⟩ := h
  exact decode_wellFormed hd

/-- With the check off no slot is compared (47_disassembly_cache.md R194). -/
theorem selfModification_of_check_off {s : State} (h : s.params.smcCheckEnable = false) (i : Instr) :
    selfModification i s = none := by
  unfold selfModification
  split
  · rfl
  · rw [h]
    rfl

/-- With the check on, a slot that holds another instruction is the fault (47_disassembly_cache.md R194). -/
theorem selfModification_changed {s : State} {i old : Instr} (hcheck : s.params.smcCheckEnable = true)
    (hslot : slotAt s.dcache s.pc.toNat = some old) (hne : old ≠ i) :
    selfModification i s = some (.selfModifyingCodeDetected s.pc.toNat (render old) (render i)) := by
  simp [selfModification, hslot, hcheck, hne]

/-- What the check finds ends the step in its fault, before the handler runs (47_disassembly_cache.md R194). -/
theorem step_raises_of_selfModification {s : State} {i : Instr} {f : FaultInfo} (hat : AtInstr s i)
    (hd : s.params.debugEnable = true) (hh : s.hold = .none) (h : selfModification i s = some f) :
    Raises (step s) s f := by
  have hstage : stage5 i s = .stopped (faultState f s) := by
    simp only [stage5, hd, if_true, hh, instrument, h]
  obtain ⟨-, -, hstopped⟩ := step_of_atInstr hat
  rw [hstopped _ hstage]
  exact raises_faultState rfl rfl f

/-- Settles O47: another text is another instruction, which the check reports; and the check passes an equal text, since
equal texts of well-formed instructions are equal instructions. -/
theorem changedCodeIsDetected : Obligations.ChangedCodeIsDetected := by
  unfold Obligations.ChangedCodeIsDetected
  intro s i hat hd hh
  refine ⟨fun old hcheck hslot hne => ?_, fun hpass => ?_⟩
  · have hold : old ≠ i := fun e => hne (congrArg render e)
    exact step_raises_of_selfModification hat hd hh (selfModification_changed hcheck hslot hold)
  · have hnone : selfModification i s = none := by
      rcases hpass with hoff | hempty | ⟨old, hslot, hwf, htext⟩
      · exact selfModification_of_check_off hoff i
      · exact selfModification_unchanged (.inl hempty)
      · obtain rfl := eq_of_render_eq hwf (wellFormed_of_atInstr hat) htext
        exact selfModification_unchanged (.inr hslot)
    obtain ⟨t, hstage, hcache⟩ := stage5_caches hd hh hnone
    exact ⟨t, hstage, by rw [hcache, slotAt_fillSlot_same, Option.map_some]⟩

end Sys2Proof.Machine
end

section
/-! PROOFS. The decoder as an equivalence, and with it decoding and encoding each other's inverse, the operand
classes, and the text of a decoded instruction (30_encoding.md R60 to R63, R65; 47_disassembly_cache.md R192, R193).
-/

namespace Sys2Proof

/-! ### The opcode map and the decoder as equivalences -/

/-- The opcode map in one sentence: an instruction is its opcode and the first operands as many as its arity
(30_encoding.md R65). -/
theorem Instr.ofOpcode_eq_some_iff {op : Nat} {a b c : Operand} {i : Instr} :
    Instr.ofOpcode op a b c = some i ↔ i.opcode = op ∧ i.operands = [a, b, c].take i.arity := by
  constructor
  · intro h
    unfold Instr.ofOpcode at h
    split at h <;> cases h <;> exact ⟨rfl, rfl⟩
  · rintro ⟨rfl, h⟩
    cases i <;> simp only [Instr.operands, Instr.arity, List.length_cons, List.length_nil, List.take_succ_cons,
      List.take_zero, List.cons.injEq, and_true] at h <;> simp only [Instr.opcode, Instr.ofOpcode, h]

theorem Instr.arity_le (i : Instr) : i.arity ≤ 3 := by
  cases i <;> simp [Instr.arity, Instr.operands]

theorem Instr.opcode_le (i : Instr) : i.opcode ≤ 21 := by
  cases i <;> simp [Instr.opcode]

/-- What the decoder reads as the first three operands are the words behind the opcode word, as far as they exist. -/
theorem take_getD_eq_take {n : Nat} {ws : List Cell} (h3 : n ≤ 3) (hlen : n ≤ ws.length) :
    [Operand.ofCell (ws.getD 0 0), .ofCell (ws.getD 1 0), .ofCell (ws.getD 2 0)].take n =
      (ws.take n).map Operand.ofCell := by
  match n, ws, h3, hlen with
  | 0, _, _, _ => rfl
  | 1, _ :: _, _, _ => rfl
  | 2, _ :: _ :: _, _, _ => rfl
  | 3, _ :: _ :: _ :: _, _, _ => rfl

/-- The decoder in one sentence: the opcode is the first word, the operands are the words behind it, and the rest is
what follows (30_encoding.md R60 to R62, R69). -/
theorem decode_cons_eq_ok_iff {w : Cell} {ws rest : List Cell} {i : Instr} :
    decode (w :: ws) = .ok (i, rest) ↔
      i.opcode = w.toNat ∧ i.arity ≤ ws.length ∧ i.operands = (ws.take i.arity).map Operand.ofCell ∧
        rest = ws.drop i.arity := by
  have hmap {j : Instr} (hlen : j.arity ≤ ws.length) :
      Instr.ofOpcode w.toNat (.ofCell (ws.getD 0 0)) (.ofCell (ws.getD 1 0)) (.ofCell (ws.getD 2 0)) = some j ↔
        j.opcode = w.toNat ∧ j.operands = (ws.take j.arity).map Operand.ofCell := by
    rw [Instr.ofOpcode_eq_some_iff, take_getD_eq_take j.arity_le hlen]
  constructor
  · intro h
    simp only [decode] at h
    split at h
    · cases h
    · next j hj =>
      split at h
      · cases h
      · next hlen =>
        cases h
        obtain ⟨hop, hargs⟩ := (hmap (Nat.le_of_not_lt hlen)).1 hj
        exact ⟨hop, Nat.le_of_not_lt hlen, hargs, rfl⟩
  · rintro ⟨hop, hlen, hargs, rfl⟩
    simp only [decode, (hmap hlen).2 ⟨hop, hargs⟩, if_neg (Nat.not_lt.2 hlen)]

/-- Settles O28: the decoder takes as many words behind the opcode as the encoder wrote, and each word's class is the
operand it came from. -/
theorem decodeOfEncode : Obligations.DecodeOfEncode := by
  unfold Obligations.DecodeOfEncode
  intro i rest hwf
  have hlen : i.arity = (i.operands.map Operand.toCell).length := (List.length_map _).symm
  have hop : i.opcode = (BitVec.ofNat 16 i.opcode).toNat := by
    have := i.opcode_le
    rw [BitVec.toNat_ofNat, Nat.mod_eq_of_lt (by omega)]
  rw [encode, List.cons_append, decode_cons_eq_ok_iff]
  refine ⟨hop, ?_, ?_, ?_⟩
  · rw [List.length_append, hlen]
    exact Nat.le_add_right _ _
  · rw [hlen, List.take_left, Instr.map_ofCell_toCell hwf]
  · rw [hlen, List.drop_left]

/-- Settles O29: the operand words are recovered from their classes, and the rest is what the operands leave. -/
theorem encodeOfDecode : Obligations.EncodeOfDecode := by
  unfold Obligations.EncodeOfDecode
  intro ws rest i h
  refine ⟨decode_wellFormed h, ?_⟩
  cases ws with
  | nil => cases h
  | cons w ws =>
    obtain ⟨hop, -, hargs, rfl⟩ := decode_cons_eq_ok_iff.1 h
    have hwords : i.operands.map Operand.toCell = ws.take i.arity := by
      rw [hargs, List.map_map]
      exact (List.map_congr_left fun v _ => toCell_ofCell v).trans (List.map_id' _)
    rw [encode, hwords, hop, BitVec.ofNat_toNat, BitVec.setWidth_eq, List.cons_append, List.take_append_drop]

/-- Settles O26: each range is its class, and the class keeps the word. -/
theorem operandClasses : Obligations.OperandClasses := by
  unfold Obligations.OperandClasses
  intro v
  refine ⟨fun h => ⟨_, ofCell_lit h, ?_⟩, fun hlo hhi => ?_, ofCell_invalid, toCell_ofCell v⟩
  · rw [BitVec.toNat_setWidth, Nat.mod_eq_of_lt h]
  · have e : v.toNat = 32768 + (⟨v.toNat - 32768, by omega⟩ : RegIndex).val := by
      simp only
      omega
    exact ⟨_, ofCell_reg e, e.symm⟩

/-- Settles O30, each list by evaluation of the decoder. -/
theorem sampleWordsDecode : Obligations.SampleWordsDecode := by
  unfold Obligations.SampleWordsDecode
  decide

end Sys2Proof

namespace Sys2Proof.Machine

open Sys2Proof.Spec

/-- Settles O53: the text gives back the opcode and the operand words. -/
theorem renderingIsInjective : Obligations.RenderingIsInjective := by
  unfold Obligations.RenderingIsInjective
  exact fun _ _ => eq_of_render_eq

/-- A rendering is the mnemonic with each operand's text, a space in front of it, in order. -/
theorem foldl_space_eq_append_join (f : Operand → String) (ops : List Operand) (text : String) :
    ops.foldl (fun t o => t ++ " " ++ f o) text = text ++ String.join (ops.map fun o => " " ++ f o) := by
  induction ops generalizing text with
  | nil => simp
  | cons o ops ih => rw [List.foldl_cons, ih, List.map_cons, String.join_cons, String.append_assoc, String.append_assoc,
      String.append_assoc]

/-- The text of a word's class is the text of the word (47_disassembly_cache.md R193). -/
theorem renderOperand_ofCell (v : Cell) : renderOperand (.ofCell v) = operandText v := by
  rw [renderOperand_eq_operandText (ofCell_wellFormed v), toCell_ofCell]

/-- Settles O60: the opcode word selects the mnemonic, and each operand's text is that of its word. -/
theorem renderingIsTheCanonicalText : Obligations.RenderingIsTheCanonicalText := by
  unfold Obligations.RenderingIsTheCanonicalText
  intro w0 ops i h
  obtain ⟨hop, -, hargs, hrest⟩ := decode_cons_eq_ok_iff.1 h
  have hall : ops.take i.arity = ops := List.take_of_length_le (List.drop_eq_nil_iff.1 hrest.symm)
  refine ⟨hop ▸ mnemonics_getElem?_opcode i, ?_⟩
  rw [render, foldl_space_eq_append_join, hargs, hall, List.map_map]
  simp only [Function.comp_def, renderOperand_ofCell]

end Sys2Proof.Machine
end

section
/-! PROOFS. `jt`, `jf`, `call`, `mod`, `rmem` and `wmem` (43_control_transfer.md R122 to R124, 44_alu.md R143,
45_load_store.md R160, R161). -/

namespace Sys2Proof.Machine

open Sys2Proof.Spec

/-! ### Jumps -/

/-- A handler that reads `a`, tests it, and resolves `b` only when the test holds, has the meaning of a conditional
jump. -/
theorem conditionalJump_of_handler {mk : Operand → Operand → Instr} {op : Cell} {taken : Word → Prop}
    {test : Word → Bool} (htest : ∀ v, test v = true ↔ taken v)
    (hexec : ∀ a b s, exec (mk a b) s = withRead a s fun v =>
      if test v then withRead b s fun t => .next (jumped s (t.setWidth 16)) else continueAfter 2 s)
    (hencode : ∀ a b, encode (mk a b) = [op, a.toCell, b.toCell]) : ConditionalJump mk op taken := by
  intro s a b
  rw [hexec]
  refine ⟨?_, ?_, ?_, ?_, hencode a b⟩
  · intro v t ha hv hb
    rw [withRead_of_readsAs ha, if_pos ((htest v).2 hv), withRead_of_readsAs hb]
  · intro v ha hv
    rw [withRead_of_readsAs ha, if_neg (mt (htest v).1 hv)]
    rfl
  · rintro w rfl
    exact withRead_invalid_raises w s _
  · rintro v w ha hv rfl
    rw [withRead_of_readsAs ha, if_pos ((htest v).2 hv)]
    exact withRead_invalid_raises w s _

theorem isNonZero_iff (v : Word) : isNonZero v = true ↔ v ≠ 0 := bne_iff_ne

theorem exec_jt (a b : Operand) (s : State) :
    exec (.jt a b) s = withRead a s fun v =>
      if isNonZero v then withRead b s fun t => .next (jumped s (t.setWidth 16)) else continueAfter 2 s := rfl

theorem exec_jf (a b : Operand) (s : State) :
    exec (.jf a b) s = withRead a s fun v =>
      if !isNonZero v then withRead b s fun t => .next (jumped s (t.setWidth 16)) else continueAfter 2 s := by
  simp only [exec, execJf]
  congr 1
  funext v
  cases isNonZero v <;> rfl

/-- Settles O6: both are the conditional jump's handler, `jf` with the test of `jt` negated. -/
theorem conditionalJumpsTestForZero : Obligations.ConditionalJumpsTestForZero := by
  unfold Obligations.ConditionalJumpsTestForZero
  constructor
  · exact conditionalJump_of_handler isNonZero_iff exec_jt fun _ _ => rfl
  · exact conditionalJump_of_handler (fun v => by simp [isNonZero]) exec_jf fun _ _ => rfl

theorem exec_call (a : Operand) (s : State) :
    exec (.call a) s = withRead a s fun t =>
      .next (jumped { s with stack := (s.pc + 2) :: s.stack } (t.setWidth 16)) := rfl

/-- Settles O13: `call` reads its operand, pushes and jumps, or the read raises the fault. -/
theorem callPushesTheNextAddress : Obligations.CallPushesTheNextAddress := by
  unfold Obligations.CallPushesTheNextAddress
  intro s a
  rw [exec_call]
  refine ⟨fun t ha => withRead_of_readsAs ha _, ?_, rfl⟩
  rintro w rfl
  exact withRead_invalid_raises w s _

/-! ### The remainder -/

theorem exec_mod (a b c : Operand) (s : State) :
    exec (.mod a b c) s = withRead b s fun vb => withRead c s fun vc =>
      if vc = 0 then raise .divideByZero s else withWrite a (vb.toNat % vc.toNat) s (continueAfter 3) := rfl

theorem toNat_pos_of_ne_zero {v : Word} (h : v ≠ 0) : 0 < v.toNat :=
  Nat.pos_of_ne_zero fun h0 => h (BitVec.eq_of_toNat_eq h0)

/-- Settles O8: the remainder and quotient are those of `Nat`; the zero divisor is found after both reads and before the
write. -/
theorem modIsTheRemainder : Obligations.ModIsTheRemainder := by
  unfold Obligations.ModIsTheRemainder
  intro s a b c
  rw [exec_mod]
  refine ⟨?_, ?_, ?_, ?_, ?_, rfl⟩
  · rintro d vb vc rfl hb hc hvc
    refine ⟨vb.toNat % vc.toNat, vb.toNat / vc.toNat, Nat.mod_lt _ (toNat_pos_of_ne_zero hvc),
      (Nat.div_add_mod' _ _).symm, ?_⟩
    rw [withRead_of_readsAs hb, withRead_of_readsAs hc, if_neg hvc, withWrite_reg, toWord_eq_ofNat]
    rfl
  · rintro w rfl
    exact withRead_invalid_raises w s _
  · rintro vb w hb rfl
    rw [withRead_of_readsAs hb]
    exact withRead_invalid_raises w s _
  · intro vb hb hc
    rw [withRead_of_readsAs hb, withRead_of_readsAs hc, if_pos rfl]
    exact raises_faultState rfl rfl _
  · intro vb vc hb hc hvc ha
    rw [withRead_of_readsAs hb, withRead_of_readsAs hc, if_neg hvc]
    exact withWrite_raises ha rfl rfl _ _

/-! ### Memory -/

theorem withDataAddress_inside {addr : Word} {s : State} (h : addr.toNat < s.memSize) (k : Nat → Result) :
    withDataAddress addr s k = k addr.toNat :=
  if_neg (Nat.not_le.2 h)

theorem withDataAddress_raises {addr : Word} {s : State} (h : s.memSize ≤ addr.toNat) (k : Nat → Result) :
    Raises (withDataAddress addr s k) s (.memoryAddressOutOfRange addr.toNat) := by
  rw [withDataAddress, if_pos h]
  exact raises_faultState rfl rfl _

theorem exec_rmem (a b : Operand) (s : State) :
    exec (.rmem a b) s = withRead b s fun addr => withDataAddress addr s fun k =>
      withWrite a (s.readCell k).toNat s (continueAfter 2) := rfl

theorem exec_wmem (a b : Operand) (s : State) :
    exec (.wmem a b) s = withRead a s fun addr => withRead b s fun v => withDataAddress addr s fun k =>
      continueAfter 2 (s.writeCell k (v.setWidth 16)) := rfl

/-- Settles O11: read, then the address test, then the write path with its reduction. -/
theorem rmemLoadsACell : Obligations.RmemLoadsACell := by
  unfold Obligations.RmemLoadsACell
  intro s a b
  rw [exec_rmem]
  refine ⟨?_, ?_, ?_, ?_, rfl⟩
  · rintro d addr rfl hb hin
    rw [withRead_of_readsAs hb, withDataAddress_inside hin, withWrite_reg]
    rfl
  · rintro w rfl
    exact withRead_invalid_raises w s _
  · intro addr hb hout
    rw [withRead_of_readsAs hb]
    exact withDataAddress_raises hout _
  · intro addr hb hin ha
    rw [withRead_of_readsAs hb, withDataAddress_inside hin]
    exact withWrite_raises ha rfl rfl _ _

/-- Settles O12: the memory it leaves is the one memory write, whose laws give the rest. -/
theorem wmemStoresAWord : Obligations.WmemStoresAWord := by
  unfold Obligations.WmemStoresAWord
  intro s a b
  rw [exec_wmem]
  refine ⟨?_, ?_, ?_, ?_, rfl⟩
  · intro addr v ha hb hin
    refine ⟨s.mem.write addr.toNat (v.setWidth 16), ?_, read_write_same _ _ _,
      fun x hx => read_write_other _ _ hx, fun hwf => write_wf hwf _ _⟩
    rw [withRead_of_readsAs ha, withRead_of_readsAs hb, withDataAddress_inside hin]
    rfl
  · rintro w rfl
    exact withRead_invalid_raises w s _
  · rintro addr w ha rfl
    rw [withRead_of_readsAs ha]
    exact withRead_invalid_raises w s _
  · intro addr v ha hb hout
    rw [withRead_of_readsAs ha, withRead_of_readsAs hb]
    exact withDataAddress_raises hout _

end Sys2Proof.Machine
end

section
/-! PROOFS. The input channel with its escape hook, and `in` on it (46_io.md R172 to R175). -/

namespace Sys2Proof.Machine

open Sys2Proof.Spec

/-! ### Escape characters -/

/-- Escapes consumed one after another leave what all of them at once leave (46_io.md R175). -/
theorem regsAfterEscapes_add {s u : State} {m : Nat} (hparams : u.params = s.params)
    (hregs : u.regs = regsAfterEscapes s m) (n : Nat) : regsAfterEscapes u n = regsAfterEscapes s (m + n) := by
  rcases Nat.eq_zero_or_pos n with rfl | hn
  · exact hregs
  · simp only [regsAfterEscapes, if_neg (show n ≠ 0 by omega), if_neg (show m + n ≠ 0 by omega), hparams, hregs]
    split
    · rfl
    · exact Vector.set_set _ _

/-- Escapes touch the last register only (46_io.md R175). -/
theorem regsAfterEscapes_other (s : State) {n : Nat} {r : RegIndex} (h : n = 0 ∨ r ≠ 7) :
    (regsAfterEscapes s n)[r] = s.regs[r] := by
  unfold regsAfterEscapes
  split
  · rfl
  · next hn => exact setReg_regs_other s _ (h.resolve_left hn)

theorem takeChar_of_not_escape {s : State} {ch : Nat} (h : s.params.escapeEnable = true → ch ≠ 37) (rest : List Nat) :
    takeChar (ch :: rest) s = (some ch, { s with inbuf := rest }) := by
  rw [takeChar, if_neg]
  simpa [Config.escapeChar] using h

/-- Escape characters in front are consumed, and the rest of the buffer is looked at with the registers they leave. -/
theorem takeChar_replicate (s : State) {n : Nat} (h : s.params.escapeEnable = false → n = 0) (rest : List Nat) :
    takeChar (List.replicate n 37 ++ rest) s = takeChar rest { s with regs := regsAfterEscapes s n } := by
  induction n generalizing s with
  | zero => rfl
  | succ n ih =>
    have hesc : s.params.escapeEnable = true := by
      by_contra hoff
      exact absurd (h (Bool.not_eq_true _ ▸ hoff)) (Nat.succ_ne_zero n)
    let u := s.setReg Config.escapeRegister (toWord s.params.escapeValue)
    have hone : u.regs = regsAfterEscapes s 1 := by
      rw [State.setReg_regs, toWord_eq_ofNat]
      rfl
    rw [List.replicate_succ, List.cons_append, takeChar, if_pos (by simp [hesc, Config.escapeChar]),
      ih u (fun hoff => by simp [u, hesc] at hoff), regsAfterEscapes_add (s := s) (u := u) rfl hone n, Nat.add_comm 1 n]
    rfl

theorem takeChar_of_escapesThen {s : State} {buf rest : List Nat} {n ch : Nat}
    (h : EscapesThen s.params.escapeEnable buf n ch rest) :
    takeChar buf s = (some ch, { s with inbuf := rest, regs := regsAfterEscapes s n }) := by
  obtain ⟨rfl, hch⟩ := h
  have hon (hesc : s.params.escapeEnable = true) : ch ≠ 37 := by rwa [if_pos hesc] at hch
  have hoff (hesc : s.params.escapeEnable = false) : n = 0 := by rwa [if_neg (by simp [hesc])] at hch
  rw [takeChar_replicate s hoff, takeChar_of_not_escape (s := { s with regs := regsAfterEscapes s n }) hon]

theorem takeChar_of_onlyEscapes {s : State} {buf : List Nat} {n : Nat}
    (h : OnlyEscapes s.params.escapeEnable buf n) :
    takeChar buf s = (none, { s with inbuf := [], regs := regsAfterEscapes s n }) := by
  obtain ⟨rfl, hoff⟩ := h
  rw [← List.append_nil (List.replicate n 37), takeChar_replicate s hoff]
  rfl

/-- A buffer delivers a character behind its escapes, or has nothing but escapes. -/
theorem escapesThen_or_onlyEscapes (esc : Bool) (buf : List Nat) :
    (∃ n ch rest, EscapesThen esc buf n ch rest) ∨ ∃ n, OnlyEscapes esc buf n := by
  induction buf with
  | nil => exact .inr ⟨0, rfl, fun _ => rfl⟩
  | cons c buf ih =>
    by_cases hc : esc = true ∧ c = 37
    · obtain ⟨rfl, rfl⟩ := hc
      rcases ih with ⟨n, ch, rest, rfl, hch⟩ | ⟨n, rfl, -⟩
      · exact .inl ⟨n + 1, ch, rest, rfl, hch⟩
      · exact .inr ⟨n + 1, rfl, fun h => by cases h⟩
    · refine .inl ⟨0, c, buf, rfl, ?_⟩
      split
      · next hesc => exact fun h37 => hc ⟨hesc, h37⟩
      · rfl

/-- A line of the host always delivers, since its newline is no escape character (46_io.md R173). -/
theorem escapesThen_line (esc : Bool) (line : List Nat) : ∃ n ch rest, EscapesThen esc (line ++ [10]) n ch rest := by
  refine (escapesThen_or_onlyEscapes esc (line ++ [10])).resolve_right ?_
  rintro ⟨n, h, -⟩
  have hmem : 10 ∈ List.replicate n 37 := by simp [← h]
  exact absurd (List.eq_of_mem_replicate hmem) (by decide)

/-! ### The channel -/

theorem nextChar_of_delivers {s u : State} {ch : Nat} (h : Delivers s ch u) : nextChar s = (some ch, u) := by
  rcases h with ⟨n, rest, h, rfl⟩ | ⟨m, n, line, lines, rest, hbuf, hlines, hline, rfl⟩
  · simp only [nextChar, takeChar_of_escapesThen h]
  · simp only [nextChar, takeChar_of_onlyEscapes hbuf, hlines, Config.newline]
    let u : State := { s with inbuf := [], regs := regsAfterEscapes s m, hostLines := lines }
    rw [takeChar_of_escapesThen (s := u) hline, regsAfterEscapes_add (s := s) (u := u) (m := m) rfl rfl]

theorem nextChar_of_noInput {s : State} {m : Nat} (h : NoInput s m) :
    nextChar s = (none, { s with inbuf := [], regs := regsAfterEscapes s m }) := by
  obtain ⟨hbuf, hlines⟩ := h
  simp only [nextChar, takeChar_of_onlyEscapes hbuf, hlines]

/-- The channel delivers, or there is no input (46_io.md R173, R174). -/
theorem delivers_or_noInput (s : State) : (∃ ch u, Delivers s ch u) ∨ ∃ m, NoInput s m := by
  rcases escapesThen_or_onlyEscapes s.params.escapeEnable s.inbuf with ⟨n, ch, rest, h⟩ | ⟨m, h⟩
  · exact .inl ⟨ch, _, .inl ⟨n, rest, h, rfl⟩⟩
  · cases hlines : s.hostLines with
    | nil => exact .inr ⟨m, h, hlines⟩
    | cons line lines =>
      obtain ⟨n, ch, rest, hline⟩ := escapesThen_line s.params.escapeEnable line
      exact .inl ⟨ch, _, .inr ⟨m, n, line, lines, rest, h, hlines, hline, rfl⟩⟩

/-- What a delivery changes: the buffer, the host's lines, and of the registers what escapes overwrite. -/
theorem delivers_frame {s u : State} {ch : Nat} (h : Delivers s ch u) :
    ∃ n inbuf lines, (s.params.escapeEnable = false → n = 0) ∧
      u = { s with inbuf := inbuf, hostLines := lines, regs := regsAfterEscapes s n } := by
  have hzero {buf rest n} (he : EscapesThen s.params.escapeEnable buf n ch rest)
      (hoff : s.params.escapeEnable = false) : n = 0 := by
    obtain ⟨-, hch⟩ := he
    rwa [if_neg (by simp [hoff])] at hch
  rcases h with ⟨n, rest, h, rfl⟩ | ⟨m, n, line, lines, rest, ⟨-, hm⟩, -, hline, rfl⟩
  · exact ⟨n, rest, s.hostLines, hzero h, rfl⟩
  · exact ⟨m + n, rest, lines, fun hoff => by rw [hm hoff, hzero hline hoff], rfl⟩

/-! ### The instruction -/

theorem execInp_of_delivers {s u : State} {ch : Nat} (h : Delivers s ch u) (a : Operand) :
    exec (.inp a) s = withWrite a ch u (continueAfter 1) := by
  simp only [exec, execInp, nextChar_of_delivers h]

theorem exec_inp_reg {s u : State} {ch : Nat} (h : Delivers s ch u) (d : RegIndex) :
    exec (.inp (.reg d)) s =
      .next { u with regs := u.regs.set d (BitVec.ofNat 15 (ch % 32768)), pc := s.pc + 2 } := by
  rw [execInp_of_delivers h, withWrite_reg]
  obtain ⟨_, _, _, -, rfl⟩ := delivers_frame h
  rfl

theorem exec_inp_of_noInput {s : State} {m : Nat} (h : NoInput s m) (a : Operand) :
    exec (.inp a) s = .next { s with inbuf := [], regs := regsAfterEscapes s m, hold := .input } := by
  simp only [exec, execInp, nextChar_of_noInput h]

/-- Settles O16: `in` is the channel's answer handed to the write path, or the hold. -/
theorem inReadsOneCharacter : Obligations.InReadsOneCharacter := by
  unfold Obligations.InReadsOneCharacter
  intro s a
  refine ⟨?_, fun ch u h ha => ?_, fun m h => exec_inp_of_noInput h a, delivers_or_noInput s, rfl⟩
  · rintro d ch u rfl h
    exact exec_inp_reg h d
  · rw [execInp_of_delivers h]
    obtain ⟨_, _, _, -, rfl⟩ := delivers_frame h
    exact withWrite_raises ha rfl rfl _ _

/-- An iteration that held in `in` resumes in the handler (46_io.md R174). -/
theorem stage5_of_input {s : State} (h : s.hold = .input) (i : Instr) :
    stage5 i s = .proceed { s with hold := .none } := by
  unfold stage5
  split
  · rw [h]
  · rfl

/-- The channel does not look at where the core waits. -/
theorem delivers_setHold {s u : State} {ch : Nat} (h : Delivers s ch u) (w : Hold) :
    Delivers { s with hold := w } ch { u with hold := w } := by
  rcases h with ⟨n, rest, h, rfl⟩ | ⟨m, n, line, lines, rest, hbuf, hlines, hline, rfl⟩
  · exact .inl ⟨n, rest, h, rfl⟩
  · exact .inr ⟨m, n, line, lines, rest, hbuf, hlines, hline, rfl⟩

/-- Settles O45: the waiting step runs the handler again, which finds no input and waits as before, or finds the line.
-/
theorem inWaitsForALine : Obligations.InWaitsForALine := by
  unfold Obligations.InWaitsForALine
  intro s a hat hhold hbuf
  obtain ⟨hproceed, -, -⟩ := step_of_atInstr hat
  rw [hproceed _ (stage5_of_input hhold _)]
  refine ⟨fun hlines => ?_, ?_⟩
  · have hnone : NoInput { s with hold := .none } 0 := ⟨⟨hbuf, fun _ => rfl⟩, hlines⟩
    rw [exec_inp_of_noInput hnone]
    simp only [regsAfterEscapes, if_true, ← hbuf, ← hhold]
  · rintro line lines ch u d - rfl h
    exact exec_inp_reg (delivers_setHold h .none) d

end Sys2Proof.Machine
end

section
/-! PROOFS. Everything a handler can do, said once: the ways an instruction runs and the causes of its faults
(40_execution_loop.md R86, R90, R92). The frames and the causes of faults are read off it. -/

namespace Sys2Proof.Machine

open Sys2Proof.Spec

/-! ### The ways an instruction runs, and the causes of its faults -/

/-- `Ran s i t`: the handler of `i` has run to its end from `s` and left `t`. -/
inductive Ran (s : State) : Instr → State → Prop
  | halt : Ran s .halt { s with run := .halted .explicit }
  | noop : Ran s .noop { s with pc := s.pc + 1 }
  | write {i d} (h : destOf i = some (.reg d)) (v : Word) :
      Ran s i { s with regs := s.regs.set d v, pc := s.pc + BitVec.ofNat 16 (i.arity + 1) }
  | push {a} (v : Word) : Ran s (.push a) { s with stack := v.setWidth 16 :: s.stack, pc := s.pc + 2 }
  | pop {d v rest} (h : s.stack = v :: rest) (w : Word) :
      Ran s (.pop (.reg d)) { s with stack := rest, regs := s.regs.set d w, pc := s.pc + 2 }
  | jmp {a} (t : Word) : Ran s (.jmp a) (jumped s (t.setWidth 16))
  | jt {a b v} (h : ReadsAs s a v) (hv : v ≠ 0) (t : Word) : Ran s (.jt a b) (jumped s (t.setWidth 16))
  | jtUntaken {a b} (h : ReadsAs s a 0) : Ran s (.jt a b) { s with pc := s.pc + 3 }
  | jf {a b} (h : ReadsAs s a 0) (t : Word) : Ran s (.jf a b) (jumped s (t.setWidth 16))
  | jfUntaken {a b v} (h : ReadsAs s a v) (hv : v ≠ 0) : Ran s (.jf a b) { s with pc := s.pc + 3 }
  | wmem {a b addr} (h : ReadsAs s a addr) (hin : addr.toNat < s.memSize) (v : Word) :
      Ran s (.wmem a b) { s with mem := s.mem.write addr.toNat (v.setWidth 16), pc := s.pc + 3 }
  | call {a} (t : Word) : Ran s (.call a) (jumped { s with stack := (s.pc + 2) :: s.stack } (t.setWidth 16))
  | ret {v rest} (h : s.stack = v :: rest) : Ran s .ret (jumped { s with stack := rest } v)
  | out {a} (c : Word) : Ran s (.out a) { s with outs := s.outs ++ [c], pc := s.pc + 2 }
  | inp {d ch u} (h : Delivers s ch u) (v : Word) :
      Ran s (.inp (.reg d)) { u with regs := u.regs.set d v, pc := s.pc + 2 }
  | inpWaits {a m} (h : NoInput s m) :
      Ran s (.inp a) { s with inbuf := [], regs := regsAfterEscapes s m, hold := .input }

/-- The faults that the handler of `i` has a cause to raise in `s` (60_exceptions.md section 1). -/
inductive HasCause (s : State) (i : Instr) : FaultInfo → Prop
  | read {c} (h : Operand.invalid c ∈ sourcesOf i) : HasCause s i (.invalidAddressingMode c)
  | write {a} (h : destOf i = some a ∨ i = .pop a ∨ i = .inp a) (ha : NotRegister a) :
      HasCause s i (.invalidWriteTarget a.toCell)
  | underflow (h : s.stack = []) (hi : i = .ret ∨ ∃ a, i = .pop a) : HasCause s i .stackUnderflow
  | divisor {a b c} (hi : i = .mod a b c) (h : ReadsAs s c 0) : HasCause s i .divideByZero
  | address {x} (h : s.memSize ≤ x) (hi : ∃ a b, i = .rmem a b ∨ i = .wmem a b) :
      HasCause s i (.memoryAddressOutOfRange x)

/-- `u` has the parameters, pc and output stream of `s`: all that a fault keeps of the core. -/
def SameSite (s u : State) : Prop := u.params = s.params ∧ u.pc = s.pc ∧ u.outs = s.outs

/-- `t` is FAULTED, with a cause for it in `i` and `s`. -/
def FaultedIn (s : State) (i : Instr) (t : State) : Prop :=
  ∃ f u, HasCause s i f ∧ SameSite s u ∧ t = faultState f u

/-- What the handler of `i` can leave: it has run to its end, or it has raised a fault. -/
def RanOrFaulted (s : State) (i : Instr) (t : State) : Prop := Ran s i t ∨ FaultedIn s i t

theorem readsAs_iff {s : State} {o : Operand} {v : Word} : ReadsAs s o v ↔ resolveRead o s = .ok v := by
  refine ⟨resolveRead_of_readsAs, fun h => ?_⟩
  cases o with
  | lit w =>
    cases h
    exact .inl rfl
  | reg r =>
    cases h
    exact .inr ⟨r, rfl, rfl⟩
  | invalid c => cases h

/-- An operand reads as one value. -/
theorem readsAs_unique {s : State} {o : Operand} {v w : Word} (hv : ReadsAs s o v) (hw : ReadsAs s o w) : v = w :=
  Except.ok.inj ((readsAs_iff.1 hv).symm.trans (readsAs_iff.1 hw))

/-! ### The shared operations -/

section
variable {s : State} {i : Instr}

theorem withRead_ranOrFaulted {o : Operand} {k : Word → Result} (hsrc : o ∈ sourcesOf i)
    (hk : ∀ v, ReadsAs s o v → Yields (k v) (RanOrFaulted s i)) : Yields (withRead o s k) (RanOrFaulted s i) := by
  rcases withRead_cases o s k with ⟨v, hv, e⟩ | ⟨c, rfl, e⟩ <;> rw [e]
  · exact hk v (readsAs_iff.2 hv)
  · exact yields_next (.inr ⟨_, s, .read hsrc, ⟨rfl, rfl, rfl⟩, rfl⟩)

theorem withWrite_ranOrFaulted {o : Operand} {val : Nat} {u : State} {k : State → Result} (hu : SameSite s u)
    (hdest : destOf i = some o ∨ i = .pop o ∨ i = .inp o)
    (hk : ∀ d, o = .reg d → Yields (k (u.setReg d (toWord val))) (RanOrFaulted s i)) :
    Yields (withWrite o val u k) (RanOrFaulted s i) := by
  rcases withWrite_cases o val u k with ⟨d, hd, e⟩ | ⟨ho, e⟩ <;> rw [e]
  · exact hk d hd
  · exact yields_next (.inr ⟨_, u, .write hdest ho, hu, rfl⟩)

theorem withPop_ranOrFaulted {k : Cell → State → Result} (hi : i = .ret ∨ ∃ a, i = .pop a)
    (hk : ∀ v rest, s.stack = v :: rest → Yields (k v { s with stack := rest }) (RanOrFaulted s i)) :
    Yields (withPop s k) (RanOrFaulted s i) := by
  rcases withPop_cases s k with ⟨v, rest, hstack, e⟩ | ⟨hempty, e⟩ <;> rw [e]
  · exact hk v rest hstack
  · exact yields_next (.inr ⟨_, s, .underflow hempty hi, ⟨rfl, rfl, rfl⟩, rfl⟩)

theorem withDataAddress_ranOrFaulted {addr : Word} {k : Nat → Result} (hi : ∃ a b, i = .rmem a b ∨ i = .wmem a b)
    (hk : addr.toNat < s.memSize → Yields (k addr.toNat) (RanOrFaulted s i)) :
    Yields (withDataAddress addr s k) (RanOrFaulted s i) := by
  rcases withDataAddress_cases addr s k with ⟨hin, e⟩ | ⟨hout, e⟩ <;> rw [e]
  · exact hk hin
  · exact yields_next (.inr ⟨_, s, .address hout hi, ⟨rfl, rfl, rfl⟩, rfl⟩)

/-- The last part of an instruction that writes a register and nothing else. -/
theorem writeResult_ranOrFaulted {a : Operand} {val n : Nat} (hdest : destOf i = some a) (hn : i.arity = n) :
    Yields (withWrite a val s (continueAfter n)) (RanOrFaulted s i) := by
  subst hn
  refine withWrite_ranOrFaulted ⟨rfl, rfl, rfl⟩ (.inl hdest) fun d hd => ?_
  subst hd
  exact yields_next (.inl (.write hdest _))

theorem binary_ranOrFaulted {f : Word → Word → Nat} {a b c : Operand} (hsrc : sourcesOf i = [b, c])
    (hdest : destOf i = some a) (hn : i.arity = 3) : Yields (binary f a b c s) (RanOrFaulted s i) :=
  withRead_ranOrFaulted (by simp [hsrc]) fun _ _ => withRead_ranOrFaulted (by simp [hsrc]) fun _ _ =>
    writeResult_ranOrFaulted hdest hn

end

/-! ### Every instruction -/

/-- Whatever a handler answers, the instruction has run to its end or has raised a fault it has a cause for. -/
theorem exec_ranOrFaulted (i : Instr) (s : State) : Yields (exec i s) (RanOrFaulted s i) := by
  cases i with
  | halt => exact yields_next (.inl .halt)
  | noop => exact yields_next (.inl .noop)
  | set a b | not a b =>
    exact withRead_ranOrFaulted (.head _) fun _ _ => writeResult_ranOrFaulted rfl rfl
  | eq a b c | gt a b c | add a b c | mult a b c | and a b c | or a b c => exact binary_ranOrFaulted rfl rfl rfl
  | mod a b c =>
    refine withRead_ranOrFaulted (.head _) fun _ _ => withRead_ranOrFaulted (.tail _ (.head _)) fun vc hc => ?_
    split
    · next hz =>
      subst hz
      exact yields_next (.inr ⟨_, s, .divisor rfl hc, ⟨rfl, rfl, rfl⟩, rfl⟩)
    · exact writeResult_ranOrFaulted rfl rfl
  | rmem a b =>
    exact withRead_ranOrFaulted (.head _) fun _ _ => withDataAddress_ranOrFaulted ⟨a, b, .inl rfl⟩ fun _ =>
      writeResult_ranOrFaulted rfl rfl
  | wmem a b =>
    exact withRead_ranOrFaulted (.head _) fun _ ha => withRead_ranOrFaulted (.tail _ (.head _)) fun v _ =>
      withDataAddress_ranOrFaulted ⟨a, b, .inr rfl⟩ fun hin => yields_next (.inl (.wmem ha hin v))
  | push a => exact withRead_ranOrFaulted (.head _) fun v _ => yields_next (.inl (.push v))
  | pop a =>
    rw [exec_pop]
    refine withPop_ranOrFaulted (.inr ⟨a, rfl⟩) fun v rest hstack =>
      withWrite_ranOrFaulted ⟨rfl, rfl, rfl⟩ (.inr (.inl rfl)) fun d hd => ?_
    subst hd
    exact yields_next (.inl (.pop hstack _))
  | jmp a => exact withRead_ranOrFaulted (.head _) fun t _ => yields_next (.inl (.jmp t))
  | jt a b =>
    refine withRead_ranOrFaulted (.head _) fun v ha => ?_
    split
    · next hv =>
      exact withRead_ranOrFaulted (.tail _ (.head _)) fun t _ => yields_next (.inl (.jt ha ((isNonZero_iff v).1 hv) t))
    · next hv =>
      obtain rfl : v = 0 := not_not.1 (mt (isNonZero_iff v).2 hv)
      exact yields_next (.inl (.jtUntaken ha))
  | jf a b =>
    refine withRead_ranOrFaulted (.head _) fun v ha => ?_
    split
    · next hv => exact yields_next (.inl (.jfUntaken ha ((isNonZero_iff v).1 hv)))
    · next hv =>
      obtain rfl : v = 0 := not_not.1 (mt (isNonZero_iff v).2 hv)
      exact withRead_ranOrFaulted (.tail _ (.head _)) fun t _ => yields_next (.inl (.jf ha t))
  | call a => exact withRead_ranOrFaulted (.head _) fun t _ => yields_next (.inl (.call t))
  | ret =>
    rw [exec_ret]
    exact withPop_ranOrFaulted (.inl rfl) fun v rest hstack => yields_next (.inl (.ret hstack))
  | out a => exact withRead_ranOrFaulted (.head _) fun c _ => yields_next (.inl (.out c))
  | inp a =>
    rcases delivers_or_noInput s with ⟨ch, u, h⟩ | ⟨m, h⟩
    · have hu : SameSite s u := by
        obtain ⟨_, _, _, -, rfl⟩ := delivers_frame h
        exact ⟨rfl, rfl, rfl⟩
      rw [execInp_of_delivers h]
      refine withWrite_ranOrFaulted hu (.inr (.inr rfl)) fun d hd => ?_
      subst hd
      rw [continueAfter_eq, State.setReg_pc, hu.2.1]
      exact yields_next (.inl (.inp h _))
    · rw [exec_inp_of_noInput h]
      exact yields_next (.inl (.inpWaits h))

/-- A handler that ends without a fault has run to its end. -/
theorem ran_of_exec {i : Instr} {s t : State} (h : exec i s = .next t) (hfault : t.isFaulted = false) : Ran s i t := by
  rcases exec_ranOrFaulted i s t h with hran | ⟨f, u, -, -, rfl⟩
  · exact hran
  · exact absurd hfault (by simp)

/-! ### What an instruction that has run changes of each part of the state -/

section
variable {s t : State} {i : Instr}

/-- Only `halt` changes the run state. -/
theorem Ran.run (h : Ran s i t) : t.run = s.run ∨ i = .halt ∧ t.run = .halted .explicit := by
  cases h with
  | halt => exact .inr ⟨rfl, rfl⟩
  | inp h v =>
    obtain ⟨_, _, _, -, rfl⟩ := delivers_frame h
    exact .inl rfl
  | _ => exact .inl rfl

theorem Ran.isFaulted (h : Ran s i t) (hs : s.isFaulted = false) : t.isFaulted = false := by
  rcases h.run with hrun | ⟨-, hrun⟩
  · rw [← hs]
    simp only [State.isFaulted, hrun]
  · simp only [State.isFaulted, hrun]

/-- Only `wmem` changes memory, at the address it resolves, to a Word (20_memory.md R54). -/
theorem Ran.mem (h : Ran s i t) :
    t.mem = s.mem ∨ ∃ a b addr, ∃ v : Word, i = .wmem a b ∧ ReadsAs s a addr ∧ addr.toNat < s.memSize ∧
      t.mem = s.mem.write addr.toNat (v.setWidth 16) := by
  cases h with
  | wmem ha hin v => exact .inr ⟨_, _, _, v, rfl, ha, hin, rfl⟩
  | inp h v =>
    obtain ⟨_, _, _, -, rfl⟩ := delivers_frame h
    exact .inl rfl
  | _ => exact .inl rfl

theorem Ran.readCell (h : Ran s i t) (hi : ∀ a b, i ≠ .wmem a b) (x : Nat) : t.readCell x = s.readCell x := by
  rcases h.mem with hmem | ⟨a, b, -, -, rfl, -⟩
  · rw [State.readCell, State.readCell, hmem]
  · exact absurd rfl (hi a b)

/-- Only push, pop, call and ret change the stack (10_state.md R18). -/
theorem Ran.stack (h : Ran s i t) :
    t.stack = s.stack ∨ i = .ret ∨ ∃ a, i = .push a ∨ i = .pop a ∨ i = .call a := by
  cases h with
  | ret => exact .inr (.inl rfl)
  | push => exact .inr (.inr ⟨_, .inl rfl⟩)
  | pop => exact .inr (.inr ⟨_, .inr (.inl rfl)⟩)
  | call => exact .inr (.inr ⟨_, .inr (.inr rfl)⟩)
  | inp h v =>
    obtain ⟨_, _, _, -, rfl⟩ := delivers_frame h
    exact .inl rfl
  | _ => exact .inl rfl

/-- No instruction changes the parameters, the cache, the debugger session or the operator's commands. -/
theorem Ran.layer (h : Ran s i t) :
    t.params = s.params ∧ t.dcache = s.dcache ∧ t.watch = s.watch ∧ t.stepMode = s.stepMode ∧
    t.stepSkip = s.stepSkip ∧ t.trace = s.trace ∧ t.commands = s.commands := by
  cases h with
  | inp h v =>
    obtain ⟨_, _, _, -, rfl⟩ := delivers_frame h
    exact ⟨rfl, rfl, rfl, rfl, rfl, rfl, rfl⟩
  | _ => exact ⟨rfl, rfl, rfl, rfl, rfl, rfl, rfl⟩

theorem not_jumps_of_destOf {a : Operand} (h : destOf i = some a) : ¬Jumps s i := by
  cases i with
  | jmp | jt | jf | call | ret => cases h
  | _ => exact id

/-- A jump records its target in an enabled layer, and nothing else touches the set (47_disassembly_cache.md R197). -/
theorem Ran.jdest (h : Ran s i t) :
    (Jumps s i ∧ t.jdest = if s.params.debugEnable then insertAddr s.jdest t.pc.toNat else s.jdest) ∨
    (¬Jumps s i ∧ t.jdest = s.jdest) := by
  cases h with
  | write h v => exact .inr ⟨not_jumps_of_destOf h, rfl⟩
  | jmp | call | ret => exact .inl ⟨trivial, rfl⟩
  | jt h hv => exact .inl ⟨⟨_, h, hv⟩, rfl⟩
  | jf h => exact .inl ⟨h, rfl⟩
  | jtUntaken h => exact .inr ⟨fun ⟨_, h', hv⟩ => hv (readsAs_unique h' h), rfl⟩
  | jfUntaken h hv => exact .inr ⟨fun h' => hv (readsAs_unique h h'), rfl⟩
  | inp h v =>
    obtain ⟨_, _, _, -, rfl⟩ := delivers_frame h
    exact .inr ⟨id, rfl⟩
  | _ => exact .inr ⟨id, rfl⟩

end

end Sys2Proof.Machine
end

section
/-! PROOFS. What follows from the ways an instruction runs: the frames, the causes of faults, the jump destinations, and
`call` with its `ret`. -/

namespace Sys2Proof.Machine

open Sys2Proof.Spec

/-! ### Frames -/

/-- Settles O17: an instruction that writes a register runs in one way only. -/
theorem registerWriteFrame : Obligations.RegisterWriteFrame := by
  unfold Obligations.RegisterWriteFrame
  intro i a s t hdest h hfault
  cases ran_of_exec h hfault with
  | write hd v =>
    obtain rfl : a = .reg _ := Option.some.inj (hdest.symm.trans hd)
    exact ⟨fun r hr => setReg_regs_other s v fun e => hr (congrArg Operand.reg e.symm), fun _ => rfl, rfl⟩
  | _ => cases hdest

/-- Settles O18: each of the four runs in one way, which says what became of the stack. -/
theorem stackFrame : Obligations.StackFrame := by
  unfold Obligations.StackFrame
  intro s t a hfault
  have ran {i : Instr} (h : exec i s = .next t) : Ran s i t := ran_of_exec h hfault
  refine ⟨fun h => ?_, fun h => ?_, fun h => ?_, fun h => ?_, ?_⟩
  · cases ran h with
    | write hd => cases hd
    | push v => exact ⟨⟨_, rfl⟩, rfl⟩
  · cases ran h with
    | write hd => cases hd
    | pop hstack w =>
      exact ⟨⟨_, hstack⟩, fun r hr => setReg_regs_other s w fun e => hr (congrArg Operand.reg e.symm), rfl⟩
  · cases ran h with
    | write hd => cases hd
    | call t => exact ⟨⟨_, rfl⟩, rfl⟩
  · cases ran h with
    | write hd => cases hd
    | ret hstack => exact ⟨⟨_, hstack⟩, rfl⟩
  · rintro (h | h | h | h) <;> exact (ran h).readCell fun _ _ e => by cases e

/-- Settles O19: `wmem` runs in one way, at the address that its first operand resolves to. -/
theorem storeFrame : Obligations.StoreFrame := by
  unfold Obligations.StoreFrame
  intro s t a b h hfault
  cases ran_of_exec h hfault with
  | write hd => cases hd
  | wmem ha hin v =>
    refine ⟨fun addr haddr x hx => ?_, rfl⟩
    obtain rfl := readsAs_unique ha (readsAs_iff.2 haddr)
    exact read_write_other _ _ hx

/-- A disabled layer keeps no jump destinations (47_disassembly_cache.md R197). -/
theorem Ran.jdest_of_disabled {s t : State} {i : Instr} (h : Ran s i t) (hoff : s.params.debugEnable = false) :
    t.jdest = s.jdest := by
  rcases h.jdest with ⟨-, e⟩ | ⟨-, e⟩
  · rw [e, hoff]
    rfl
  · exact e

/-- Settles O20: the jumps leave pc and the jump destinations, taken or not. -/
theorem controlFrame : Obligations.ControlFrame := by
  unfold Obligations.ControlFrame
  intro s t a b hfault
  have ran {i : Instr} (h : exec i s = .next t) : Ran s i t := ran_of_exec h hfault
  refine ⟨fun h => ?_, fun h => ?_, ?_, ?_⟩
  · cases ran h with
    | write hd => cases hd
    | halt => rfl
  · cases ran h with
    | write hd => cases hd
    | noop => rfl
  · rintro (h | h | h) <;> refine ⟨?_, (ran h).jdest_of_disabled⟩
    · cases ran h with
      | write hd => cases hd
      | jmp => rfl
    · cases ran h with
      | write hd => cases hd
      | jt | jtUntaken => rfl
    · cases ran h with
      | write hd => cases hd
      | jf | jfUntaken => rfl
  · rintro (h | h | h | h | h) <;> exact (ran h).readCell fun _ _ e => by cases e

/-- Settles O21: `out` runs in one way; `in` writes its destination on what the channel leaves, or waits, and the
channel touches the last register only, and only with the hook. -/
theorem inputOutputFrame : Obligations.InputOutputFrame := by
  unfold Obligations.InputOutputFrame
  intro s t a hfault
  have ran {i : Instr} (h : exec i s = .next t) : Ran s i t := ran_of_exec h hfault
  refine ⟨fun h => ?_, fun h => ?_, ?_⟩
  · cases ran h with
    | write hd => cases hd
    | out => rfl
  · cases ran h with
    | write hd => cases hd
    | inp hdel v =>
      obtain ⟨n, _, _, hoff, rfl⟩ := delivers_frame hdel
      refine ⟨rfl, fun r hr hesc => ?_⟩
      have hne : r ≠ _ := fun e => hr (congrArg Operand.reg e.symm)
      exact (setReg_regs_other { s with regs := regsAfterEscapes s n } v hne).trans
        (regsAfterEscapes_other s (hesc.imp_left hoff))
    | inpWaits hno =>
      obtain ⟨⟨-, hoff⟩, -⟩ := hno
      exact ⟨rfl, fun r _ hesc => regsAfterEscapes_other s (hesc.imp_left hoff)⟩
  · rintro (h | h) <;> exact (ran h).readCell fun _ _ e => by cases e

/-! ### Faults -/

/-- Settles O24: a handler that has run leaves no FAULTED state, and a fault keeps what it names. -/
theorem faultsArePrecise : Obligations.FaultsArePrecise := by
  unfold Obligations.FaultsArePrecise
  intro i s t hs h hfault
  rcases exec_ranOrFaulted i s t h with hran | ⟨f, u, -, ⟨-, hpc, houts⟩, rfl⟩
  · rw [hran.isFaulted hs] at hfault
    cases hfault
  · exact ⟨f, by rw [faultState_run, hpc], hpc, houts⟩

/-- The fault in the record of a handler's answer has a cause (60_exceptions.md section 1). -/
theorem hasCause_of_exec {i : Instr} {s t : State} {f : FaultInfo} {p : Cell} (hs : s.isFaulted = false)
    (h : exec i s = .next t) (hrun : t.run = .faulted ⟨f, p⟩) : HasCause s i f := by
  rcases exec_ranOrFaulted i s t h with hran | ⟨g, u, hcause, -, rfl⟩
  · have hfault := (isFaulted_iff t).2 ⟨_, hrun⟩
    rw [hran.isFaulted hs] at hfault
    cases hfault
  · rw [faultState_run] at hrun
    cases hrun
    exact hcause

/-- The names of the faults in the order of their codes, from 1 on (60_exceptions.md R220). -/
def faultNames : List String :=
  ["UnknownOpcode", "TruncatedInstruction", "InvalidAddressingMode", "InvalidWriteTarget", "StackUnderflow",
    "SelfModifyingCodeDetected", "DivideByZero", "MemoryAddressOutOfRange"]

theorem faultNames_getElem?_code (f : FaultInfo) : faultNames[f.code - 1]? = some f.name := by
  cases f <;> rfl

theorem FaultInfo.code_pos (f : FaultInfo) : 0 < f.code := by
  cases f <;> exact Nat.succ_pos _

/-- A code and a name identify the same fault, since no name stands twice (60_exceptions.md R220). -/
theorem code_eq_iff_name_eq (f g : FaultInfo) : f.code = g.code ↔ f.name = g.name := by
  have hf := faultNames_getElem?_code f
  have hg := faultNames_getElem?_code g
  constructor
  · intro h
    rw [h, hg] at hf
    exact (Option.some.inj hf).symm
  · intro h
    have hlt : f.code - 1 < faultNames.length := (List.getElem?_eq_some_iff.1 hf).1
    have hpred : f.code - 1 = g.code - 1 := (List.getElem?_inj hlt (by decide)).1 (by rw [hf, hg, h])
    have hfpos := f.code_pos
    have hgpos := g.code_pos
    omega

/-- Settles O25: the causes are those of the handlers; the table of codes and names is that of the spec. -/
theorem faultsHaveTheirCauses : Obligations.FaultsHaveTheirCauses := by
  unfold Obligations.FaultsHaveTheirCauses
  refine ⟨fun i s t f p hs h hrun => ?_, fun f => by cases f <;> rfl, code_eq_iff_name_eq⟩
  cases hasCause_of_exec hs h hrun with
  | read h => exact h
  | write h ha => exact ⟨_, h, ha, rfl⟩
  | underflow h hi => exact ⟨h, hi⟩
  | divisor hi h => exact ⟨_, _, _, hi, h⟩
  | address h hi => exact ⟨h, hi⟩

/-! ### Jump destinations, and `call` with its `ret` -/

/-- Settles O49: a jump inserts its target into the set, and the set is otherwise as it was. -/
theorem jumpDestinationsAreRecorded : Obligations.JumpDestinationsAreRecorded := by
  unfold Obligations.JumpDestinationsAreRecorded
  intro i s t hd h hfault
  rcases (ran_of_exec h hfault).jdest with ⟨hjumps, e⟩ | ⟨hjumps, e⟩
  · refine ⟨fun _ x => ?_, fun hnot => absurd hjumps hnot⟩
    rw [e, if_pos hd]
    exact mem_insertAddr
  · exact ⟨fun hj => absurd hj hjumps, fun _ => e⟩

/-- Settles O44: `call` leaves pc + 2 on top of the old stack, and `ret` takes it off again. -/
theorem retReturnsBehindTheCall : Obligations.RetReturnsBehindTheCall := by
  unfold Obligations.RetReturnsBehindTheCall
  intro s t u a h hfault hstack
  cases ran_of_exec h hfault with
  | write hd => cases hd
  | call t => exact ⟨_, exec_ret_cons hstack, rfl, rfl⟩

end Sys2Proof.Machine
end

section
/-! PROOFS. The canonical form of slots and of memory, the start of a run, and the invariant at its start
(20_memory.md R41, R46; 70_reset_and_hazards.md R260 to R263; 10_state.md R31). -/

namespace Sys2Proof.Machine

open Sys2Proof.Spec

/-! ### Lists of slots with rising addresses -/

section
variable {α : Type}

theorem slotAt_eq_none_of_lt {m : List (Nat × α)} {a : Nat} (h : ∀ c ∈ m, a < c.1) : slotAt m a = none := by
  induction m with
  | nil => rfl
  | cons c rest ih =>
    obtain ⟨hc, hrest⟩ := List.forall_mem_cons.1 h
    rw [slotAt, if_neg (Nat.ne_of_gt hc), ih hrest]

/-- With rising addresses a slot holds what is listed for it, and nothing else is listed. -/
theorem slotAt_eq_some_iff {m : List (Nat × α)} (h : Rising m) {a : Nat} {v : α} :
    slotAt m a = some v ↔ (a, v) ∈ m := by
  induction m with
  | nil => simp [slotAt]
  | cons c rest ih =>
    obtain ⟨k, w⟩ := c
    obtain ⟨hk, hr⟩ := List.pairwise_cons.1 h
    rw [slotAt, List.mem_cons, Prod.mk.injEq]
    split
    · next hka =>
      subst hka
      have hnot : (k, v) ∉ rest := fun hmem => absurd (hk _ hmem) (Nat.lt_irrefl k)
      simp [hnot, eq_comm]
    · next hka => simp [ih hr, Ne.symm hka]

theorem Rising.nodup {m : List (Nat × α)} (h : Rising m) : m.Nodup :=
  List.Pairwise.imp (fun hlt e => Nat.ne_of_lt hlt (congrArg Prod.fst e)) h

/-- Lists of slots with rising addresses that hold the same slots are equal. -/
theorem eq_of_rising_of_mem_iff {m n : List (Nat × α)} (hm : Rising m) (hn : Rising n) (h : ∀ c, c ∈ m ↔ c ∈ n) :
    m = n :=
  List.Perm.eq_of_pairwise (fun _ _ _ _ hab hba => absurd hab (Nat.lt_asymm hba)) hm hn
    ((List.perm_ext_iff_of_nodup (Rising.nodup hm) (Rising.nodup hn)).2 h)

end

/-! ### Memory -/

/-- A memory in canonical form lists the cells that read as other than 0, and no others (log entry 6). -/
theorem mem_iff_read {m : Memory} (h : m.wf) {a : Nat} {v : Cell} :
    (a, v) ∈ m ↔ m.read a = v ∧ v ≠ Memory.unlisted := by
  obtain ⟨hrising, hlisted⟩ := h
  rw [← slotAt_eq_some_iff hrising, Memory.read]
  constructor
  · intro hslot
    rw [hslot]
    exact ⟨rfl, hlisted _ ((slotAt_eq_some_iff hrising).1 hslot)⟩
  · rintro ⟨hread, hv⟩
    cases hslot : slotAt m a with
    | none =>
      rw [hslot] at hread
      exact absurd hread.symm hv
    | some w =>
      rw [hslot] at hread
      exact congrArg some hread

/-- Settles O42: what a canonical memory lists is what it reads, and its order is that of the addresses. -/
theorem memoriesThatReadAlikeAreEqual : Obligations.MemoriesThatReadAlikeAreEqual := by
  unfold Obligations.MemoriesThatReadAlikeAreEqual
  intro m n hm hn h
  refine eq_of_rising_of_mem_iff hm.1 hn.1 fun c => ?_
  rw [mem_iff_read hm, mem_iff_read hn, h]

/-- Words loaded from `a` on change no cell outside their range. -/
theorem read_loadWords_outside (ws : List Cell) {a x : Nat} (h : x < a ∨ a + ws.length ≤ x) (m : Memory) :
    (loadWords ws a m).read x = m.read x := by
  induction ws generalizing a m with
  | nil => rfl
  | cons w ws ih =>
    rw [List.length_cons] at h
    rw [loadWords, ih (by omega), read_write_other _ _ (by omega)]

/-- Word `k` of those loaded from `a` on stands in cell `a + k` (70_reset_and_hazards.md R261). -/
theorem read_loadWords_inside {ws : List Cell} {k : Nat} (h : k < ws.length) (a : Nat) (m : Memory) :
    (loadWords ws a m).read (a + k) = ws[k] := by
  induction ws generalizing a k m with
  | nil => cases h
  | cons w ws ih =>
    cases k with
    | zero =>
      have hbehind : (loadWords ws (a + 1) (m.write a w)).read a = (m.write a w).read a :=
        read_loadWords_outside ws (.inl (Nat.lt_succ_self a)) _
      exact hbehind.trans (read_write_same m a w)
    | succ k =>
      have hrec := ih (Nat.lt_of_succ_lt_succ h) (a + 1) (m.write a w)
      rwa [Nat.add_right_comm] at hrec

theorem loadWords_inside (ws : List Cell) {a size : Nat} (hfit : a + ws.length ≤ size) {m : Memory}
    (hm : ∀ c ∈ m, c.1 < size) : ∀ c ∈ loadWords ws a m, c.1 < size := by
  induction ws generalizing a m with
  | nil => exact hm
  | cons w ws ih =>
    rw [List.length_cons] at hfit
    refine ih (by omega) fun c hc => ?_
    rcases mem_write hc with rfl | hc
    · omega
    · exact hm c hc

theorem applyPatches_inside (ps : List (Nat × Cell)) {size : Nat} (hps : ∀ q ∈ ps, q.1 < size) {m : Memory}
    (hm : ∀ c ∈ m, c.1 < size) : ∀ c ∈ applyPatches ps m, c.1 < size := by
  induction ps generalizing m with
  | nil => exact hm
  | cons p ps ih =>
    obtain ⟨hp, hps⟩ := List.forall_mem_cons.1 hps
    refine ih hps fun c hc => ?_
    rcases mem_write hc with e | hc
    · exact e ▸ hp
    · exact hm c hc

/-- A patch behind the others is one more write (70_reset_and_hazards.md R262). -/
theorem applyPatches_concat (ps : List (Nat × Cell)) (a : Nat) (v : Cell) (m : Memory) :
    applyPatches (ps ++ [(a, v)]) m = (applyPatches ps m).write a v := by
  induction ps generalizing m with
  | nil => rfl
  | cons p ps ih => exact ih _

/-! ### The launch -/

/-- An even number of bytes is half as many words, each with its low byte first (30_encoding.md R74). -/
theorem imageWords_of_even : ∀ {image : List (BitVec 8)}, image.length % 2 = 0 →
    ∃ ws, imageWords image = some ws ∧ 2 * ws.length = image.length ∧ ∀ k (h : k < ws.length),
      ws[k].toNat = (image.getD (2 * k) 0).toNat + 256 * (image.getD (2 * k + 1) 0).toNat
  | [], _ => ⟨[], rfl, rfl, fun _ h => by cases h⟩
  | lo :: hi :: rest, heven => by
    obtain ⟨ws, hws, hlen, hword⟩ := imageWords_of_even (image := rest) ((Nat.add_mod_right _ 2).symm.trans heven)
    refine ⟨BitVec.ofNat 16 (lo.toNat + 256 * hi.toNat) :: ws, by rw [imageWords, hws], ?_, fun k hk => ?_⟩
    · simp only [List.length_cons]
      omega
    · cases k with
      | zero =>
        have hlo := lo.isLt
        have hhi := hi.isLt
        exact Nat.mod_eq_of_lt (by omega)
      | succ k => exact hword k (Nat.lt_of_succ_lt_succ hk)

theorem imageWords_of_odd : ∀ {image : List (BitVec 8)}, image.length % 2 = 1 → imageWords image = none
  | [_], _ => rfl
  | _ :: _ :: rest, hodd => by
    rw [imageWords, imageWords_of_odd (image := rest) ((Nat.add_mod_right _ 2).symm.trans hodd)]

/-- When a launch answers a state, and which (70_reset_and_hazards.md R260). -/
theorem launch_eq_next_iff {p : Params} {image : List (BitVec 8)} {patches : List (Nat × Cell)}
    {lines : List (List Nat)} {commands : List Command} {t : State} :
    launch p image patches lines commands = .next t ↔
      ∃ ws, imageWords image = some ws ∧ ws.length ≤ p.memSize ∧ (∀ q ∈ patches, q.1 < p.memSize) ∧
        t = startState p (applyPatches patches (loadWords ws 0 [])) lines commands := by
  have hpatches : (patches.any fun q => p.memSize ≤ q.1) = false ↔ ∀ q ∈ patches, q.1 < p.memSize := by simp
  constructor
  · intro h
    unfold launch at h
    split at h
    · cases h
    · next ws hws =>
      split at h
      · cases h
      · next hlen =>
        split at h
        · cases h
        · next hps =>
          cases h
          exact ⟨ws, hws, Nat.le_of_not_lt hlen, hpatches.1 (Bool.not_eq_true _ ▸ hps), rfl⟩
  · rintro ⟨ws, hws, hlen, hps, rfl⟩
    simp only [launch, hws, if_neg (Nat.not_lt.2 hlen), hpatches.2 hps, Bool.false_eq_true, if_false]

/-- Settles O58: the image's words stand where the load puts them, and the empty memory reads as 0 behind them. -/
theorem imageLoadsLittleEndian : Obligations.ImageLoadsLittleEndian := by
  unfold Obligations.ImageLoadsLittleEndian
  intro p image lines commands
  refine ⟨fun heven hfit => ?_, fun hodd => ?_, fun heven hlong => ?_⟩
  · obtain ⟨ws, hws, hlen, hword⟩ := imageWords_of_even heven
    refine ⟨_, launch_eq_next_iff.2 ⟨ws, hws, by omega, by simp, rfl⟩, fun k hk => ?_, fun k hk => ?_⟩
    · have hk : k < ws.length := by omega
      have hread := read_loadWords_inside hk 0 []
      rw [Nat.zero_add] at hread
      exact (congrArg BitVec.toNat hread).trans (hword k hk)
    · exact read_loadWords_outside ws (.inr (by omega)) []
  · simp only [launch, imageWords_of_odd hodd]
  · obtain ⟨ws, hws, hlen, -⟩ := imageWords_of_even heven
    simp only [launch, hws, if_pos (show p.memSize < ws.length by omega)]

/-- Settles O59: the last patch is one more write on the launched memory. -/
theorem patchesOverwriteInOrder : Obligations.PatchesOverwriteInOrder := by
  unfold Obligations.PatchesOverwriteInOrder
  intro p image patches lines commands t a v h ha
  obtain ⟨ws, hws, hlen, hps, rfl⟩ := launch_eq_next_iff.1 h
  have hps' : ∀ q ∈ patches ++ [(a, v)], q.1 < p.memSize :=
    List.forall_mem_append.2 ⟨hps, List.forall_mem_singleton.2 ha⟩
  refine ⟨_, launch_eq_next_iff.2 ⟨ws, hws, hlen, hps', rfl⟩, ?_, fun x hx => ?_, rfl⟩
  · rw [applyPatches_concat]
    exact read_write_same _ _ _
  · rw [applyPatches_concat]
    exact read_write_other _ _ hx

/-- Settles O57: reset and every launch differ in the parameters, the memory and the inputs of the run only. -/
theorem startStateIsAsStated : Obligations.StartStateIsAsStated := by
  unfold Obligations.StartStateIsAsStated
  have hstart (p mem lines commands) (s : State) (h : s = startState p mem lines commands) :
      (∀ i : RegIndex, s.regs[i] = 0) ∧ s.pc = 0 ∧ s.stack = [] ∧ s.run = .running ∧ s.inbuf = [] ∧ s.outs = [] ∧
      (∀ a, slotAt s.dcache a = none) ∧ s.jdest = [] ∧ (∀ i : RegIndex, s.watch[i] = false) ∧
      s.stepMode = s.params.stepModeReset ∧ s.stepSkip = 0 ∧ s.trace = false := by
    subst h
    exact ⟨fun i => Vector.getElem_replicate _, rfl, rfl, rfl, rfl, rfl, fun _ => rfl, rfl,
      fun i => Vector.getElem_replicate _, rfl, rfl, rfl⟩
  rintro s (rfl | ⟨p, image, patches, lines, commands, h⟩)
  · exact hstart Params.initial [] [] [] _ rfl
  · obtain ⟨ws, -, -, -, e⟩ := launch_eq_next_iff.1 h
    exact hstart p _ lines commands s e

/-! ### The invariant at the start -/

/-- A start over a memory in canonical form, inside MEM_SIZE, has the invariant. -/
theorem kept_startState {p : Params} {mem : Memory} (hwf : mem.wf) (hinside : ∀ c ∈ mem, c.1 < p.memSize)
    (lines : List (List Nat)) (commands : List Command) : Kept (startState p mem lines commands) where
  memCanonical := hwf
  memInside := hinside
  stackBound := List.forall_mem_nil _
  pcBound := Nat.zero_le _
  cacheRising := List.Pairwise.nil
  cacheInside := List.forall_mem_nil _
  jdestRising := List.Pairwise.nil
  jdestBound := List.forall_mem_nil _

theorem nil_wf : Memory.wf [] := ⟨List.Pairwise.nil, List.forall_mem_nil _⟩

/-- Settles O39: reset is a start over the empty memory. -/
theorem resetMeetsTheInvariant : Obligations.ResetMeetsTheInvariant :=
  kept_startState (p := Params.initial) nil_wf (List.forall_mem_nil _) [] []

/-- Settles O41: load and patches write inside MEM_SIZE only, and each write keeps the canonical form. -/
theorem launchMeetsTheInvariant : Obligations.LaunchMeetsTheInvariant := by
  unfold Obligations.LaunchMeetsTheInvariant
  intro p image patches lines commands t h
  obtain ⟨ws, -, hlen, hps, rfl⟩ := launch_eq_next_iff.1 h
  have hload : ∀ c ∈ loadWords ws 0 [], c.1 < p.memSize :=
    loadWords_inside ws (by omega) (List.forall_mem_nil _)
  exact kept_startState (applyPatches_wf _ (loadWords_wf _ _ nil_wf)) (applyPatches_inside patches hps hload) _ _

end Sys2Proof.Machine
end

section
/-! PROOFS. The loop: its fetch, what a step that does not fault has done, and the ends of a run (40_execution_loop.md
R80 to R85, R93; 10_state.md R22). -/

namespace Sys2Proof

/-- An opcode's arity does not hang on its operands (30_encoding.md R69). -/
theorem Instr.ofOpcode_operands {op : Nat} {x y z : Operand} {i : Instr} (h : Instr.ofOpcode op x y z = some i)
    (a b c : Operand) : ∃ j, Instr.ofOpcode op a b c = some j ∧ j.opcode = i.opcode ∧ j.arity = i.arity := by
  unfold Instr.ofOpcode at h
  split at h <;> cases h <;> exact ⟨_, rfl, rfl, rfl⟩

/-- The words behind an opcode are counted before they are looked at (40_execution_loop.md R83). -/
theorem decode_cons_of_ofOpcode {w : Cell} {x y z : Operand} {i : Instr}
    (h : Instr.ofOpcode w.toNat x y z = some i) (ws : List Cell) :
    ∃ j, j.opcode = i.opcode ∧ decode (w :: ws) =
      if ws.length < i.arity then .error (.truncated w) else .ok (j, ws.drop i.arity) := by
  obtain ⟨j, hj, hop, harity⟩ := Instr.ofOpcode_operands h (.ofCell (ws.getD 0 0)) (.ofCell (ws.getD 1 0))
    (.ofCell (ws.getD 2 0))
  exact ⟨j, hop, by simp only [decode, hj, harity]⟩

end Sys2Proof

namespace Sys2Proof.Machine

open Sys2Proof.Spec

/-! ### The fetch -/

theorem State.length_cellsFrom (s : State) (a n : Nat) : (s.cellsFrom a n).length = min n (s.memSize - a) := by
  rw [State.cellsFrom, List.length_map, List.length_range]

/-- An instruction that was fetched ends inside memory (40_execution_loop.md R83). -/
theorem atInstr_fits {s : State} {i : Instr} (h : AtInstr s i) : s.pc.toNat + i.arity < s.memSize := by
  obtain ⟨-, hm, rest, hd⟩ := h
  rw [State.cellsFrom_succ hm 3, decode_cons_eq_ok_iff, State.length_cellsFrom] at hd
  obtain ⟨-, hlen, -⟩ := hd
  omega

/-- The fetch itself finds no modified code. -/
theorem fetch_error_ne {s : State} {f : FaultInfo} (h : fetch s = .error f) (a : Nat) (x y : String) :
    f ≠ .selfModifyingCodeDetected a x y := by
  rintro rfl
  unfold fetch at h
  split at h <;> cases h

/-- Settles O33: the fetch reports the cells as far as memory goes, and the step raises what it reports. -/
theorem unknownOpcodeIsReported : Obligations.UnknownOpcodeIsReported := by
  unfold Obligations.UnknownOpcodeIsReported
  exact fun s hr hm hw => step_raises_of_fetch_error hr hm (fetch_unknownOpcode hm hw)

/-- Settles O34: the words behind pc are as many as memory has, up to the largest arity. -/
theorem truncatedInstructionIsReported : Obligations.TruncatedInstructionIsReported := by
  unfold Obligations.TruncatedInstructionIsReported
  intro s i x y z hr hm hop
  have harity := i.arity_le
  obtain ⟨j, hj, hd⟩ := decode_cons_of_ofOpcode hop (s.cellsFrom (s.pc.toNat + 1) 3)
  rw [← State.cellsFrom_succ hm 3, State.length_cellsFrom] at hd
  refine ⟨fun hout => ?_, fun hin => ?_⟩
  · rw [if_pos (by omega)] at hd
    exact step_raises_of_fetch_error hr hm (by simp only [fetch, maxWords, hd])
  · rw [if_neg (by omega)] at hd
    exact ⟨j, ⟨hr, hm, _, hd⟩, hj⟩

/-! ### What a step has done -/

/-- A step that does not fault has run off the end of memory, or run the handler of the instruction at pc on what
stage 5 left, or held in stage 5. -/
theorem step_ran {s t : State} (hr : s.run = .running) (h : step s = .next t) (hfault : t.isFaulted = false) :
    (s.memSize ≤ s.pc.toNat ∧ t = { s with run := .halted .offEnd }) ∨
    ∃ i, AtInstr s i ∧
      ((∃ u, stage5 i s = .proceed u ∧ LayerFrame s u ∧ Ran u i t) ∨ (stage5 i s = .held t ∧ LayerFrame s t)) := by
  rcases step_cases hr h with hend | ⟨-, f, -, rfl⟩ |
    ⟨hm, i, hf, ⟨f, -, -, rfl⟩ | ⟨u, hstage, -, hu, -, he⟩ | ⟨hstage, -, ht, -⟩⟩
  · exact .inl hend
  · exact absurd hfault (by simp)
  · exact absurd hfault (by simp)
  · exact .inr ⟨i, atInstr_of_fetch hr hm hf, .inl ⟨u, hstage, hu, ran_of_exec he hfault⟩⟩
  · exact .inr ⟨i, atInstr_of_fetch hr hm hf, .inr ⟨hstage, ht⟩⟩

/-- A disabled layer lets every instruction execute (47_disassembly_cache.md R190). -/
theorem stage5_of_disabled {s : State} (h : s.params.debugEnable = false) (i : Instr) :
    stage5 i s = .proceed { s with hold := .none } := by
  simp only [stage5, h, Bool.false_eq_true, if_false]

theorem setHold_none_of_hold {s : State} (h : s.hold = .none) : { s with hold := .none } = s := by
  rw [← h]

/-- Settles O31: the step does what stage 5 says, and a disabled layer says to execute. -/
theorem stepRunsTheDecodedInstruction : Obligations.StepRunsTheDecodedInstruction := by
  unfold Obligations.StepRunsTheDecodedInstruction
  intro s i hat
  refine ⟨fun hoff hh => ?_, step_of_atInstr hat⟩
  obtain ⟨hproceed, -, -⟩ := step_of_atInstr hat
  rw [hproceed _ (stage5_of_disabled hoff i), setHold_none_of_hold hh]

/-- Settles O32: the end-of-memory test is the first stage. -/
theorem offTheEndIsACleanHalt : Obligations.OffTheEndIsACleanHalt := by
  unfold Obligations.OffTheEndIsACleanHalt
  exact fun _ => step_of_offEnd

theorem step_of_halted {s : State} {r : HaltReason} (h : s.run = .halted r) : step s = .next s := by
  simp only [step, h]

theorem step_of_faulted {s : State} {r : FaultRecord} (h : s.run = .faulted r) : step s = .fault (.faulted r) := by
  simp only [step, h]

/-- A RUNNING core always has a next state: every stage answers one, and so does every handler. -/
theorem step_answers {s : State} (hr : s.run = .running) : ∃ t, step s = .next t := by
  rcases Nat.lt_or_ge s.pc.toNat s.memSize with hm | hm
  · cases hf : fetch s with
    | error f =>
      obtain ⟨t, e, -⟩ := step_raises_of_fetch_error hr hm hf
      exact ⟨t, e⟩
    | ok i =>
      obtain ⟨hproceed, hheld, hstopped⟩ := step_of_atInstr (atInstr_of_fetch hr hm hf)
      rcases stage5_cases i s with ⟨u, e, -⟩ | ⟨u, e, -⟩ | ⟨f, -, -, e⟩
      · rw [hproceed u e]
        exact exec_answers i u
      · exact ⟨u, hheld u e⟩
      · exact ⟨_, hstopped _ e⟩
  · exact ⟨_, step_of_offEnd hr hm⟩

/-- Settles O35: `step` looks at the run state first, and every path of a RUNNING core ends in a next state. -/
theorem finalStatesAreFinal : Obligations.FinalStatesAreFinal := by
  unfold Obligations.FinalStatesAreFinal
  exact ⟨fun _ _ => step_of_halted, fun _ _ => step_of_faulted, fun _ => step_answers⟩

/-- Settles O36: a step without a fault runs off the end, holds RUNNING, or runs an instruction, and only `halt`
changes the run state. -/
theorem theLoopEndsInThreeWays : Obligations.TheLoopEndsInThreeWays := by
  unfold Obligations.TheLoopEndsInThreeWays
  intro s t hr h hend
  cases hfault : t.isFaulted with
  | true => exact .inr (.inr rfl)
  | false =>
    rcases step_ran hr h hfault with ⟨hm, rfl⟩ | ⟨i, hat, ⟨u, -, hu, hran⟩ | ⟨-, ht⟩⟩
    · exact .inr (.inl ⟨rfl, hm⟩)
    · obtain ⟨-, -, -, -, urun, -⟩ := hu.core
      rcases hran.run with hrun | ⟨rfl, hrun⟩
      · exact absurd (hrun.trans (urun.trans hr)) hend
      · exact .inl ⟨hrun, hat⟩
    · obtain ⟨-, -, -, -, trun, -⟩ := ht.core
      exact absurd (trun.trans hr) hend

/-- A Word in a cell has bit 15 clear. -/
theorem toNat_setWidth_lt (v : Word) : (v.setWidth 16 : Cell).toNat < 32768 := by
  rw [← Operand.toCell, toCell_lit_toNat]
  exact v.isLt

/-- Settles O37: stage 5 touches neither storage, and of the instructions only those named do. -/
theorem storagesHaveTheirOwnMutators : Obligations.StoragesHaveTheirOwnMutators := by
  unfold Obligations.StoragesHaveTheirOwnMutators
  intro s t hr h hfault
  rcases step_ran hr h hfault with ⟨-, rfl⟩ | ⟨i, hat, ⟨u, -, hu, hran⟩ | ⟨-, ht⟩⟩
  · exact ⟨fun _ hne => absurd rfl hne, fun hne => absurd rfl hne⟩
  · obtain ⟨-, -, ustack, umem, -⟩ := hu.core
    refine ⟨fun x hne => ?_, fun hne => ?_⟩
    · simp only [State.readCell] at hne ⊢
      rcases hran.mem with hmem | ⟨a, b, addr, v, rfl, -, -, hmem⟩
      · exact absurd (congrArg (Memory.read · x) (hmem.trans umem)) hne
      · refine ⟨⟨a, b, hat⟩, ?_⟩
        by_cases hx : x = addr.toNat
        · rw [hmem, hx, read_write_same]
          exact toNat_setWidth_lt v
        · rw [hmem, read_write_other _ _ hx, umem] at hne
          exact absurd rfl hne
    · rcases hran.stack with hstack | rfl | ⟨a, rfl | rfl | rfl⟩
      · exact absurd (hstack.trans ustack) hne
      · exact .inl hat
      · exact .inr ⟨a, .inl hat⟩
      · exact .inr ⟨a, .inr (.inl hat)⟩
      · exact .inr ⟨a, .inr (.inr hat)⟩
  · obtain ⟨-, -, tstack, tmem, -⟩ := ht.core
    exact ⟨fun x hne => absurd (congrArg (Memory.read · x) tmem) hne, fun hne => absurd tstack hne⟩

/-! ### The layer over one step -/

/-- Settles O46: a disabled stage 5 touches nothing but the hold, no handler touches the layer's state, and the check
that raises SelfModifyingCodeDetected is not made. -/
theorem disabledLayerDoesNothing : Obligations.DisabledLayerDoesNothing := by
  unfold Obligations.DisabledLayerDoesNothing
  intro s t hr hoff h
  refine ⟨fun hfault => ?_, fun a x y p hrun => ?_⟩
  · rcases step_ran hr h hfault with ⟨-, rfl⟩ | ⟨i, -, ⟨u, hstage, -, hran⟩ | ⟨hstage, -⟩⟩
    · exact ⟨rfl, rfl, rfl, rfl, rfl, rfl, rfl⟩
    · rw [stage5_of_disabled hoff] at hstage
      cases hstage
      obtain ⟨-, hdcache, hsession⟩ := hran.layer
      exact ⟨hdcache, hran.jdest_of_disabled hoff, hsession⟩
    · rw [stage5_of_disabled hoff] at hstage
      cases hstage
  · rcases step_cases hr h with ⟨-, rfl⟩ | ⟨-, f, hf, rfl⟩ |
      ⟨-, i, -, ⟨f, -, hon, -⟩ | ⟨u, -, -, hu, -, he⟩ | ⟨-, -, ht, -⟩⟩
    · cases hrun
    · rw [faultState_run] at hrun
      cases hrun
      exact fetch_error_ne hf a x y rfl
    · rw [hoff] at hon
      cases hon
    · obtain ⟨-, -, -, -, urun, -⟩ := hu.core
      cases hasCause_of_exec (isFaulted_of_running (urun.trans hr)) he hrun
    · obtain ⟨-, -, -, -, trun, -⟩ := ht.core
      rw [trun, hr] at hrun
      cases hrun

/-- Settles O48: past the check stage 5 fills the slot of pc, and no handler touches the cache. -/
theorem cacheHoldsTheLastFetched : Obligations.CacheHoldsTheLastFetched := by
  unfold Obligations.CacheHoldsTheLastFetched
  intro s t i hat hd hh h hfault
  have hcheck : selfModification i s = none := by
    by_contra hsome
    obtain ⟨f, hf⟩ := Option.ne_none_iff_exists'.1 hsome
    obtain ⟨t', ht', hrun, -⟩ := step_raises_of_selfModification hat hd hh hf
    obtain rfl : t = t' := by
      rw [h] at ht'
      cases ht'
      rfl
    rw [(isFaulted_iff t).2 ⟨_, hrun⟩] at hfault
    cases hfault
  have hcache : t.dcache = fillSlot s.dcache s.pc.toNat i := by
    obtain ⟨hproceed, hheld, -⟩ := step_of_atInstr hat
    obtain ⟨u, hstage | hstage, hu⟩ := stage5_caches hd hh hcheck
    · rw [hproceed u hstage] at h
      obtain ⟨-, hdcache, -⟩ := (ran_of_exec h hfault).layer
      exact hdcache.trans hu
    · rw [hheld u hstage] at h
      cases h
      exact hu
  rw [hcache]
  exact ⟨slotAt_fillSlot_same _ _ _, fun x hx => slotAt_fillSlot_other _ _ hx⟩

end Sys2Proof.Machine
end

section
/-! PROOFS. Every step keeps the invariant of the core's states (10_state.md R14, R19, R20, R26, R27). -/

namespace Sys2Proof.Machine

open Sys2Proof.Spec

/-! ### The updates of an instruction -/

/-- An instruction that ends inside memory leaves pc at most MEM_SIZE. -/
theorem advancedPc_le {s : State} {n : Nat} (h : s.pc.toNat + n < s.memSize) :
    (s.pc + BitVec.ofNat 16 (n + 1)).toNat ≤ 32768 := by
  have hsize := s.memSize_le
  rw [BitVec.toNat_add, BitVec.toNat_ofNat]
  omega

theorem kept_jumped {s : State} (h : Kept s) {target : Cell} (ht : target.toNat ≤ 32768) : Kept (jumped s target) := by
  refine { h with pcBound := ht, jdestRising := ?_, jdestBound := ?_ }
  · simp only [jumped]
    split
    · exact insertAddr_rising h.jdestRising _
    · exact h.jdestRising
  · simp only [jumped]
    split
    · intro a ha
      rcases mem_insertAddr.1 ha with rfl | ha
      · exact ht
      · exact h.jdestBound a ha
    · exact h.jdestBound

theorem kept_push {s : State} (h : Kept s) {v : Cell} (hv : v.toNat ≤ 32768) :
    Kept { s with stack := v :: s.stack } :=
  { h with stackBound := List.forall_mem_cons.2 ⟨hv, h.stackBound⟩ }

/-- The popped element is an address that pc may hold. -/
theorem kept_pop {s : State} (h : Kept s) {v : Cell} {rest : List Cell} (hstack : s.stack = v :: rest) :
    v.toNat ≤ 32768 ∧ Kept { s with stack := rest } := by
  have hbound := h.stackBound
  rw [hstack] at hbound
  obtain ⟨hv, hrest⟩ := List.forall_mem_cons.1 hbound
  exact ⟨hv, { h with stackBound := hrest }⟩

theorem kept_write {s : State} (h : Kept s) {a : Nat} (ha : a < s.memSize) (v : Cell) :
    Kept { s with mem := s.mem.write a v } := by
  refine { h with memCanonical := write_wf h.memCanonical a v, memInside := fun c hc => ?_ }
  rcases mem_write hc with rfl | hc
  · exact ha
  · exact h.memInside c hc

theorem kept_fillSlot {s : State} (h : Kept s) {a : Nat} (ha : a < s.memSize) {i : Instr}
    (hi : i.wellFormed = true) : Kept { s with dcache := fillSlot s.dcache a i } := by
  refine { h with cacheRising := fillSlot_rising h.cacheRising a i, cacheInside := fun c hc => ?_ }
  rcases mem_fillSlot hc with rfl | hc
  · exact ⟨ha, hi⟩
  · exact h.cacheInside c hc

/-- An instruction that ends inside memory and runs keeps the invariant. -/
theorem Ran.kept {s t : State} {i : Instr} (h : Ran s i t) (hs : Kept s) (hfit : s.pc.toNat + i.arity < s.memSize) :
    Kept t := by
  have hpc : (s.pc + BitVec.ofNat 16 (i.arity + 1)).toNat ≤ 32768 := advancedPc_le hfit
  cases h with
  | halt => exact { hs with }
  | noop | write | out | jtUntaken | jfUntaken => exact { hs with pcBound := hpc }
  | push v => exact { kept_push hs (toNat_setWidth_lt v).le with pcBound := hpc }
  | pop hstack => exact { (kept_pop hs hstack).2 with pcBound := hpc }
  | jmp t | jt _ _ t | jf _ t => exact kept_jumped hs (toNat_setWidth_lt t).le
  | wmem _ hin v => exact { kept_write hs hin _ with pcBound := hpc }
  | call t => exact kept_jumped (kept_push hs hpc) (toNat_setWidth_lt t).le
  | ret hstack =>
    obtain ⟨hv, hrest⟩ := kept_pop hs hstack
    exact kept_jumped hrest hv
  | inp hdel v =>
    obtain ⟨_, _, _, -, rfl⟩ := delivers_frame hdel
    exact { hs with pcBound := hpc }
  | inpWaits => exact { hs with }

/-! ### The other parts of a step -/

/-- The free contents of a FAULTED core are entered slot by slot, so they have the invariant whatever they are (log
entry 2). -/
theorem kept_faultState {s : State} (hpc : s.pc.toNat ≤ 32768) (f : FaultInfo) : Kept (faultState f s) where
  memCanonical := canonicalContents_wf _ _
  memInside :=
    List.foldlRecOn (motive := fun m : Memory => ∀ c ∈ m, c.1 < s.memSize) _ _ (List.forall_mem_nil _)
      fun _ hm w hw c hc => by
        rcases mem_write hc with e | hc
        · exact e ▸ of_decide_eq_true (List.mem_filter.1 hw).2
        · exact hm c hc
  stackBound := fun _ hv => of_decide_eq_true (List.mem_filter.1 hv).2
  pcBound := hpc
  cacheRising :=
    List.foldlRecOn (motive := fun m : List (Nat × Instr) => Rising m) _ _ List.Pairwise.nil
      fun _ hm w _ => fillSlot_rising hm w.1 w.2
  cacheInside :=
    List.foldlRecOn (motive := fun m : List (Nat × Instr) => ∀ c ∈ m, c.1 < s.memSize ∧ c.2.wellFormed = true) _ _
      (List.forall_mem_nil _) fun _ hm w hw c hc => by
        rcases mem_fillSlot hc with rfl | hc
        · simpa using (List.mem_filter.1 hw).2
        · exact hm c hc
  jdestRising :=
    List.foldlRecOn (motive := fun l : List Nat => l.Pairwise (· < ·)) _ _ List.Pairwise.nil
      fun _ hl a _ => insertAddr_rising hl a
  jdestBound :=
    List.foldlRecOn (motive := fun l : List Nat => ∀ a ∈ l, a ≤ 32768) _ _ (List.forall_mem_nil _)
      fun _ hl w hw a ha => by
        rcases mem_insertAddr.1 ha with rfl | ha
        · exact of_decide_eq_true (List.mem_filter.1 hw).2
        · exact hl a ha

/-- Stage 5 touches nothing of the invariant but the cache, where it enters what was fetched. -/
theorem kept_of_layerFrame {s u : State} {i : Instr} (hs : Kept s) (hat : AtInstr s i) (hu : LayerFrame s u)
    (hcache : u.dcache = s.dcache ∨ u.dcache = fillSlot s.dcache s.pc.toNat i) : Kept u := by
  obtain ⟨_, _, _, _, _, _, _, _, rfl⟩ := hu
  obtain ⟨-, hm, -⟩ := id hat
  rcases hcache with rfl | rfl
  · exact { hs with }
  · exact { kept_fillSlot hs hm (wellFormed_of_atInstr hat) with }

/-- Settles O40: a fault enters its free contents in canonical form; otherwise stage 5 and then the instruction, which
ends inside memory, keep the invariant. -/
theorem stepKeepsTheInvariant : Obligations.StepKeepsTheInvariant := by
  unfold Obligations.StepKeepsTheInvariant
  intro s t hs h
  cases hr : s.run with
  | halted r =>
    rw [step_of_halted hr] at h
    cases h
    exact hs
  | faulted r =>
    rw [step_of_faulted hr] at h
    cases h
  | running =>
    rcases step_cases hr h with ⟨-, rfl⟩ | ⟨-, f, -, rfl⟩ |
      ⟨hm, i, hf, ⟨f, -, -, rfl⟩ | ⟨u, -, -, hu, hcache, he⟩ | ⟨-, -, ht, hcache⟩⟩
    · exact { hs with }
    · exact kept_faultState hs.pcBound f
    · exact kept_faultState hs.pcBound f
    · have hat := atInstr_of_fetch hr hm hf
      have hkept := kept_of_layerFrame hs hat hu hcache
      rcases exec_ranOrFaulted i u t he with hran | ⟨f, w, -, ⟨-, hpc, -⟩, rfl⟩
      · refine hran.kept hkept ?_
        obtain ⟨uparams, upc, -⟩ := hu.core
        rw [upc, State.memSize, uparams]
        exact atInstr_fits hat
      · exact kept_faultState (hpc ▸ hkept.pcBound) f
    · exact kept_of_layerFrame hs (atInstr_of_fetch hr hm hf) ht hcache

end Sys2Proof.Machine
end

section
/-! PROOFS. The debugger session: the operator's commands, the operator point, the watchpoint, and the listing of the
cache (60_exceptions.md R238 to R247; 47_disassembly_cache.md R198, R199). -/

namespace Sys2Proof.Machine

open Sys2Proof.Spec

/-! ### Commands -/

theorem watchSet_getElem (rs : List Nat) (r : RegIndex) : (watchSet rs)[r] = true ↔ r.val ∈ rs := by
  simp [watchSet]

/-- Settles O52, command by command. -/
theorem commandsDoWhatTheySay : Obligations.CommandsDoWhatTheySay := by
  unfold Obligations.CommandsDoWhatTheySay
  intro s
  refine ⟨by simp [runCommand], fun i v => ?_, fun i v hi => ?_, rfl, fun _ => rfl, fun rs hrs => ?_,
    fun rs hrs => ?_, rfl, rfl⟩
  · rw [runCommand, dif_pos i.isLt]
    rfl
  · rw [runCommand, dif_neg (Nat.not_lt.2 hi)]
  · refine ⟨watchSet rs, ?_, watchSet_getElem rs⟩
    rw [runCommand, if_pos (by simpa using hrs)]
  · obtain ⟨r, hr, h8⟩ := hrs
    rw [runCommand, if_neg]
    intro hall
    exact absurd (of_decide_eq_true (List.all_eq_true.1 hall r hr)) (Nat.not_lt.2 h8)

/-! ### The operator point -/

/-- No command but an `n` of 1 or more sets the count (60_exceptions.md R240 to R247). -/
theorem runCommand_stepSkip {c : Command} {s : State} (hc : ∀ j, c ≠ .n (j + 1)) (hs : s.stepSkip = 0) :
    (runCommand c s).stepSkip = 0 := by
  cases c with
  | n count =>
    cases count with
    | zero => rfl
    | succ j => exact absurd rfl (hc j)
  | rs i v =>
    simp only [runCommand]
    split <;> exact hs
  | w rs =>
    simp only [runCommand]
    split <;> exact hs
  | help | r | d | dis | malformed => exact hs

/-- Commands without a count are run one after another, and the operator is asked again (60_exceptions.md R239). -/
theorem takeCommands_append {before : List Command} (hbefore : ∀ j, .n (j + 1) ∉ before) {s : State}
    (hs : s.stepSkip = 0) (cs : List Command) :
    takeCommands (before ++ cs) s = takeCommands cs (before.foldl (fun t c => runCommand c t) s) := by
  induction before generalizing s with
  | nil => rfl
  | cons c before ih =>
    have hc : ∀ j, c ≠ .n (j + 1) := fun j e => hbefore j (e ▸ List.mem_cons_self)
    have hskip := runCommand_stepSkip hc hs
    rw [List.cons_append, takeCommands, List.foldl_cons]
    simp only [if_pos hskip]
    exact ih (fun j hj => hbefore j (List.mem_cons_of_mem _ hj)) hskip

theorem operatorPoint_of_no_prompt {s : State} (h : s.stepMode = false ∨ s.stepSkip ≠ 0) :
    operatorPoint s = .proceed { s with stepSkip := s.stepSkip - 1, hold := .none } := by
  rw [operatorPoint, if_neg]
  · rfl
  · rcases h with h | h <;> simp [h]

theorem operatorPoint_of_count {s : State} (hmode : s.stepMode = true) (hskip : s.stepSkip = 0)
    {before after : List Command} {k : Nat} (hbefore : ∀ j, .n (j + 1) ∉ before)
    (hcommands : s.commands = before ++ .n (k + 1) :: after) :
    operatorPoint s = .proceed { before.foldl (fun t c => runCommand c t) s with
      commands := after, stepSkip := k, hold := .none } := by
  rw [operatorPoint, if_pos (by simp [hmode, hskip]), hcommands, takeCommands_append hbefore hskip]
  rfl

theorem operatorPoint_of_no_count {s : State} (hmode : s.stepMode = true) (hskip : s.stepSkip = 0)
    (hcommands : ∀ j, .n (j + 1) ∉ s.commands) :
    operatorPoint s = .held { s.commands.foldl (fun t c => runCommand c t) s with
      commands := [], hold := .operator } := by
  have htake := takeCommands_append hcommands hskip []
  rw [List.append_nil] at htake
  rw [operatorPoint, if_pos (by simp [hmode, hskip]), htake]
  rfl

theorem operatorPoint_of_no_commands {s : State} (hmode : s.stepMode = true) (hskip : s.stepSkip = 0)
    (hcommands : s.commands = []) : operatorPoint s = .held { s with hold := .operator } := by
  rw [operatorPoint_of_no_count hmode hskip (by simp [hcommands])]
  rw [hcommands, List.foldl_nil, ← hcommands]

/-- Settles O51: the three ways of the operator point, and a held core that is given no command. -/
theorem operatorPointPrompts : Obligations.OperatorPointPrompts := by
  unfold Obligations.OperatorPointPrompts
  intro s
  refine ⟨operatorPoint_of_no_prompt, fun before k after hmode hskip => operatorPoint_of_count hmode hskip,
    operatorPoint_of_no_count, fun i hat hd hhold hmode hskip hcommands => ?_⟩
  have hstage : stage5 i s = .held { s with hold := .operator } := by
    simp only [stage5, hd, if_true, hhold]
    exact operatorPoint_of_no_commands hmode hskip hcommands
  obtain ⟨-, hheld, -⟩ := step_of_atInstr hat
  rw [hheld _ hstage, ← hhold]

/-! ### The watchpoint -/

theorem watchHit_iff (i : Instr) (s : State) : watchHit i s = true ↔ NamesWatched s i := by
  rw [watchHit, List.any_eq_true, NamesWatched]
  constructor
  · rintro ⟨o, ho, hw⟩
    cases o with
    | reg r => exact ⟨r, ho, hw⟩
    | lit v => cases hw
    | invalid c => cases hw
  · rintro ⟨r, hr, hw⟩
    exact ⟨_, hr, hw⟩

/-- An instruction that is unmodified, or not checked, passes the check (47_disassembly_cache.md R194). -/
theorem selfModification_of_unmodified {s : State} {i : Instr} (h : Unmodified s i) : selfModification i s = none := by
  rcases h with hoff | hslot
  · exact selfModification_of_check_off hoff i
  · exact selfModification_unchanged hslot

/-- Stage 5 of a new iteration, past the check, is the watch check and the operator point on the cached core. -/
theorem stage5_of_unmodified {s : State} {i : Instr} (hd : s.params.debugEnable = true) (hh : s.hold = .none)
    (h : Unmodified s i) : stage5 i s = operatorPoint (watchCheck i (cached s i)) := by
  simp only [stage5, hd, if_true, hh, instrument, selfModification_of_unmodified h]
  rfl

/-- The core after a hit on the cached instruction: nothing watched, single-step mode on, no count running. -/
def afterHit (s : State) (i : Instr) : State :=
  { cached s i with watch := Vector.replicate 8 false, stepMode := true, stepSkip := 0 }

theorem watchCheck_of_watched {s : State} {i : Instr} (h : NamesWatched s i) :
    watchCheck i (cached s i) = afterHit s i :=
  if_pos ((watchHit_iff i (cached s i)).2 h)

theorem watchCheck_of_not_watched {s : State} {i : Instr} (h : ¬NamesWatched s i) :
    watchCheck i (cached s i) = cached s i :=
  if_neg (mt (watchHit_iff i (cached s i)).1 h)

/-- Settles O50: a hit brings the operator point into its prompting case, and without one nothing is prompted. -/
theorem watchpointFires : Obligations.WatchpointFires := by
  unfold Obligations.WatchpointFires
  intro s i hat hd hh hun
  obtain ⟨hproceed, hheld, -⟩ := step_of_atInstr hat
  have hstage := stage5_of_unmodified hd hh hun
  refine ⟨fun hwatch hcommands => ?_, fun k hwatch hcommands => ?_, fun hwatch hmode => ?_⟩
  · rw [watchCheck_of_watched hwatch, operatorPoint_of_no_commands (s := afterHit s i) rfl rfl hcommands] at hstage
    exact hheld _ hstage
  · rw [watchCheck_of_watched hwatch,
      operatorPoint_of_count (s := afterHit s i) (before := []) rfl rfl (by simp) hcommands] at hstage
    rw [hproceed _ hstage, ← hh]
    rfl
  · rw [watchCheck_of_not_watched hwatch, operatorPoint_of_no_prompt (s := cached s i) (.inl hmode)] at hstage
    rw [hproceed _ hstage, ← hh]
    rfl

/-! ### The listing of the cache -/

section
variable {α β : Type}

/-- A loop over all addresses of a range that does something for the filled slots only is a loop over the slots, when
these rise within the range. -/
theorem flatMap_range'_slotAt (f : Nat → α → List β) (n : Nat) {b : Nat} {m : List (Nat × α)} (h : Rising m)
    (hlo : ∀ c ∈ m, b ≤ c.1) (hhi : ∀ c ∈ m, c.1 < b + n) :
    (List.range' b n).flatMap (fun a => (slotAt m a).elim [] (f a)) = m.flatMap fun c => f c.1 c.2 := by
  induction n generalizing b m with
  | zero =>
    have hempty : m = [] := List.eq_nil_iff_forall_not_mem.2 fun c hc => absurd (hhi c hc) (Nat.not_lt.2 (hlo c hc))
    subst hempty
    rfl
  | succ n ih =>
    rw [List.range'_succ, List.flatMap_cons]
    by_cases hfirst : ∃ v rest, m = (b, v) :: rest
    · obtain ⟨v, rest, rfl⟩ := hfirst
      obtain ⟨hb, hrest⟩ := List.pairwise_cons.1 h
      have hbehind : (List.range' (b + 1) n).flatMap (fun a => (slotAt ((b, v) :: rest) a).elim [] (f a)) =
          (List.range' (b + 1) n).flatMap fun a => (slotAt rest a).elim [] (f a) := by
        refine List.flatMap_congr fun a ha => ?_
        rw [slotAt, if_neg (Nat.ne_of_lt (List.mem_range'_1.1 ha).1)]
      rw [hbehind, ih hrest hb fun c hc => by have := hhi c (List.mem_cons_of_mem _ hc); omega, slotAt, if_pos rfl,
        List.flatMap_cons]
      rfl
    · have hlo' : ∀ c ∈ m, b + 1 ≤ c.1 := by
        intro c hc
        cases m with
        | nil => cases hc
        | cons d rest =>
          have hd : b ≠ d.1 := fun e => hfirst ⟨d.2, rest, by rw [e]⟩
          have hbd := hlo d List.mem_cons_self
          rcases List.mem_cons.1 hc with rfl | hc
          · omega
          · have := (List.pairwise_cons.1 h).1 c hc
            omega
      rw [slotAt_eq_none_of_lt fun c hc => hlo' c hc, Option.elim_none, List.nil_append,
        ih h hlo' fun c hc => by have := hhi c hc; omega]

end

/-- Settles O54: the cache has its slots rising and inside memory, so that the loop over the addresses meets them in
order. -/
theorem exportListsTheCache : Obligations.ExportListsTheCache := by
  unfold Obligations.ExportListsTheCache
  intro s hs
  have hinside : ∀ c ∈ s.dcache, c.1 < 0 + s.memSize := fun c hc => by
    rw [Nat.zero_add]
    exact (hs.cacheInside c hc).1
  rw [exportLines, List.range_eq_range', ← flatMap_range'_slotAt
    (fun a i => (if a ∈ s.jdest then [""] else []) ++ [Nat.repr a ++ "| " ++ render i]) s.memSize hs.cacheRising
    (fun _ _ => Nat.zero_le _) hinside]
  refine List.flatMap_congr fun a _ => ?_
  cases slotAt s.dcache a <;> rfl

end Sys2Proof.Machine
end

section
/-! PROOFS. The laws of arithmetic on what the instructions leave (44_alu.md R147). -/

namespace Sys2Proof.Machine

open Sys2Proof.Spec

/-- What a three-operand instruction leaves that writes the Word `v` to register `d`. -/
def wrote (s : State) (d : RegIndex) (v : Word) : State := { s with regs := s.regs.set d v, pc := s.pc + 4 }

theorem readsAs_wrote (s : State) (d : RegIndex) (v : Word) : ReadsAs (wrote s d v) (.reg d) v :=
  .inr ⟨d, rfl, setReg_regs_same s d v⟩

/-- Of two writes to one register the second is what remains. -/
theorem wrote_wrote (s : State) (d : RegIndex) (v w : Word) :
    wrote (wrote s d v) d w = { s with regs := s.regs.set d w, pc := s.pc + 4 + 4 } := by
  simp only [wrote, Vector.set_set]

/-- The sum modulo 32768 is the sum of Words (44_alu.md R141). -/
theorem toWord_aluAdd (vb vc : Word) : toWord (aluAdd vb vc) = vb + vc := by
  apply BitVec.eq_of_toNat_eq
  rw [toNat_toWord, aluAdd_eq, Nat.mod_mod, BitVec.toNat_add]

/-- The product modulo 32768 is the product of Words (44_alu.md R142). -/
theorem toWord_aluMult (vb vc : Word) : toWord (aluMult vb vc) = vb * vc := by
  apply BitVec.eq_of_toNat_eq
  rw [toNat_toWord, aluMult_eq, Nat.mod_mod, BitVec.toNat_mul]

theorem exec_add_reg {s : State} {b c : Operand} {vb vc : Word} (hb : ReadsAs s b vb) (hc : ReadsAs s c vc)
    (d : RegIndex) : exec (.add (.reg d) b c) s = .next (wrote s d (vb + vc)) := by
  rw [exec_add, binary_of_readsAs hb hc, withWrite_reg, toWord_aluAdd]
  rfl

theorem exec_mult_reg {s : State} {b c : Operand} {vb vc : Word} (hb : ReadsAs s b vb) (hc : ReadsAs s c vc)
    (d : RegIndex) : exec (.mult (.reg d) b c) s = .next (wrote s d (vb * vc)) := by
  rw [exec_mult, binary_of_readsAs hb hc, withWrite_reg, toWord_aluMult]
  rfl

/-- An instruction that writes an associative operation of its sources reaches the same state on both ways to combine
three values. -/
theorem exec_assoc {mk : Operand → Operand → Operand → Instr} {op : Word → Word → Word}
    (hexec : ∀ {s b c vb vc}, ReadsAs s b vb → ReadsAs s c vc →
      ∀ d, exec (mk (.reg d) b c) s = .next (wrote s d (op vb vc)))
    (hassoc : ∀ x y z, op (op x y) z = op x (op y z)) (s : State) (d : RegIndex) (x y z : Word) :
    ∃ t u t' u', exec (mk (.reg d) (.lit x) (.lit y)) s = .next t ∧ exec (mk (.reg d) (.reg d) (.lit z)) t = .next u ∧
      exec (mk (.reg d) (.lit y) (.lit z)) s = .next t' ∧ exec (mk (.reg d) (.lit x) (.reg d)) t' = .next u' ∧ u = u' :=
  ⟨_, _, _, _, hexec (.inl rfl) (.inl rfl) d, hexec (readsAs_wrote s d _) (.inl rfl) d, hexec (.inl rfl) (.inl rfl) d,
    hexec (.inl rfl) (readsAs_wrote s d _) d, by rw [wrote_wrote, wrote_wrote, hassoc]⟩

theorem exec_not_reg {s : State} {b : Operand} {v : Word} (hb : ReadsAs s b v) (d : RegIndex) :
    exec (.not (.reg d) b) s = .next { s.setReg d (toWord (aluNot v)) with pc := s.pc + 3 } := by
  rw [exec_not, withRead_of_readsAs hb, withWrite_reg]
  rfl

theorem toNat_toWord_aluNot (v : Word) : (toWord (aluNot v)).toNat = 32767 - v.toNat := by
  rw [toNat_toWord, aluNot]
  omega

/-- The complement is its own inverse (44_alu.md R147). -/
theorem toWord_aluNot_aluNot (v : Word) : toWord (aluNot (toWord (aluNot v))) = v := by
  have hv := v.isLt
  apply BitVec.eq_of_toNat_eq
  rw [toNat_toWord_aluNot, toNat_toWord_aluNot]
  omega

/-- Settles O43: the instructions write the operations of 15-bit Words, which have these laws. -/
theorem arithmeticLaws : Obligations.ArithmeticLaws := by
  unfold Obligations.ArithmeticLaws
  intro s d x y z
  refine ⟨?_, ?_, exec_assoc exec_add_reg BitVec.add_assoc s d x y z,
    exec_assoc exec_mult_reg BitVec.mul_assoc s d x y z, ?_, fun hz => ?_⟩
  · rw [exec_add_reg (.inl rfl) (.inl rfl), exec_add_reg (.inl rfl) (.inl rfl), BitVec.add_comm]
  · rw [exec_mult_reg (.inl rfl) (.inl rfl), exec_mult_reg (.inl rfl) (.inl rfl), BitVec.mul_comm]
  · have hfirst := setReg_regs_same s d (toWord (aluNot x))
    let t : State := { s.setReg d (toWord (aluNot x)) with pc := s.pc + 3 }
    have hread : ReadsAs t (.reg d) (toWord (aluNot x)) := .inr ⟨d, rfl, hfirst⟩
    refine ⟨t, _, exec_not_reg (.inl rfl) d, exec_not_reg hread d, ?_, ?_⟩
    · exact (setReg_regs_same _ d _).trans (toWord_aluNot_aluNot x)
    · exact (congrArg BitVec.toNat hfirst).trans (toNat_toWord_aluNot x)
  · have hmod : exec (.mod (.reg d) (.lit x) (.lit z)) s =
        continueAfter 3 (s.setReg d (toWord (x.toNat % z.toNat))) := by
      rw [exec_mod, withRead_of_readsAs (.inl rfl), withRead_of_readsAs (.inl rfl), if_neg hz, withWrite_reg]
    have hlt : x.toNat % z.toNat < z.toNat := Nat.mod_lt _ (toNat_pos_of_ne_zero hz)
    have hresult : (toWord (x.toNat % z.toNat)).toNat = x.toNat % z.toNat := by
      have := z.isLt
      rw [toNat_toWord, Nat.mod_eq_of_lt (by omega)]
    refine ⟨_, hmod, x.toNat / z.toNat, ?_⟩
    simp only [setReg_regs_same, hresult]
    exact ⟨(Nat.div_add_mod' _ _).symm, hlt⟩

end Sys2Proof.Machine
end

section
/-! PROOFS. The layer observes and never alters execution (47_disassembly_cache.md R200): two cores that agree in
everything but the layer's state run every instruction alike, and stage 5 keeps them so. -/

namespace Sys2Proof.Machine

open Sys2Proof.Spec

/-! ### Cores that agree, operation by operation -/

/-- Two cores that are not FAULTED and agree in everything but the layer's state. -/
def Twins (s t : State) : Prop := s.isFaulted = false ∧ SameCore s t

/-- Two handlers or steps answer next states that agree. -/
def ResultsAgree (x y : Result) : Prop := ∃ s t, x = .next s ∧ y = .next t ∧ Agree s t

theorem resultsAgree_next {s t : State} (h : Twins s t) : ResultsAgree (.next s) (.next t) :=
  ⟨s, t, rfl, rfl, .inl h⟩

/-- A fault keeps of two agreeing cores what must agree (40_execution_loop.md R92). -/
theorem resultsAgree_faultState {s t : State} (h : SameCore s t) (f : FaultInfo) :
    ResultsAgree (.next (faultState f s)) (.next (faultState f t)) := by
  obtain ⟨-, hpc, -, -, -, -, houts, -⟩ := h
  exact ⟨_, _, rfl, rfl, .inr ⟨⟨f, s.pc⟩, rfl, by rw [faultState_run, hpc], houts, hpc⟩⟩

section
variable {s t : State} (h : Twins s t)
include h

theorem pc_of_twins : t.pc = s.pc := by
  obtain ⟨-, -, hpc, -⟩ := h
  exact hpc

theorem twins_setReg (d : RegIndex) (v : Word) : Twins (s.setReg d v) (t.setReg d v) := by
  obtain ⟨hs, hregs, hrest⟩ := h
  exact ⟨hs, congrArg (·.set d v) hregs, hrest⟩

theorem twins_setPc (c : Cell) : Twins { s with pc := c } { t with pc := c } := by
  obtain ⟨hs, hregs, -, hrest⟩ := h
  exact ⟨hs, hregs, rfl, hrest⟩

theorem twins_setStack (rest : List Cell) : Twins { s with stack := rest } { t with stack := rest } := by
  obtain ⟨hs, hregs, hpc, -, hrest⟩ := h
  exact ⟨hs, hregs, hpc, rfl, hrest⟩

theorem twins_push (v : Cell) : Twins (s.push v) (t.push v) := by
  obtain ⟨hs, hregs, hpc, hstack, hrest⟩ := h
  exact ⟨hs, hregs, hpc, congrArg (v :: ·) hstack, hrest⟩

theorem twins_writeCell (a : Nat) (v : Cell) : Twins (s.writeCell a v) (t.writeCell a v) := by
  obtain ⟨hs, hregs, hpc, hstack, hmem, hrest⟩ := h
  exact ⟨hs, hregs, hpc, hstack, congrArg (·.write a v) hmem, hrest⟩

theorem twins_halt : Twins { s with run := .halted .explicit } { t with run := .halted .explicit } := by
  obtain ⟨-, hregs, hpc, hstack, hmem, -, hrest⟩ := h
  exact ⟨rfl, hregs, hpc, hstack, hmem, rfl, hrest⟩

theorem twins_emit (c : Word) : Twins (s.emit c) (t.emit c) := by
  obtain ⟨hs, hregs, hpc, hstack, hmem, hrun, hinbuf, houts, hrest⟩ := h
  exact ⟨hs, hregs, hpc, hstack, hmem, hrun, hinbuf, congrArg (· ++ [c]) houts, hrest⟩

theorem continueAfter_agree (n : Nat) : ResultsAgree (continueAfter n s) (continueAfter n t) := by
  rw [continueAfter_eq, continueAfter_eq, pc_of_twins h]
  exact resultsAgree_next (twins_setPc h _)

/-- The jump-destination set is the layer's. -/
theorem jumpTo_agree (c : Cell) : ResultsAgree (jumpTo c s) (jumpTo c t) :=
  resultsAgree_next (twins_setPc h c)

theorem withRead_agree {o : Operand} {k l : Word → Result} (hk : ∀ v, ResultsAgree (k v) (l v)) :
    ResultsAgree (withRead o s k) (withRead o t l) := by
  obtain ⟨-, hsame⟩ := h
  obtain ⟨hregs, -⟩ := id hsame
  cases o with
  | lit v => exact hk v
  | reg r =>
    rw [withRead_ok (resolveRead_reg r s), withRead_ok (resolveRead_reg r t), hregs]
    exact hk _
  | invalid c => exact resultsAgree_faultState hsame _

theorem withWrite_agree {o : Operand} {val : Nat} {k l : State → Result}
    (hk : ∀ d v, ResultsAgree (k (s.setReg d v)) (l (t.setReg d v))) :
    ResultsAgree (withWrite o val s k) (withWrite o val t l) := by
  cases o with
  | reg d => exact hk d _
  | lit v => exact resultsAgree_faultState h.2 _
  | invalid c => exact resultsAgree_faultState h.2 _

theorem writeResult_agree (a : Operand) (val n : Nat) :
    ResultsAgree (withWrite a val s (continueAfter n)) (withWrite a val t (continueAfter n)) :=
  withWrite_agree h fun d v => continueAfter_agree (twins_setReg h d v) n

theorem withPop_agree {k l : Cell → State → Result}
    (hk : ∀ v rest, ResultsAgree (k v { s with stack := rest }) (l v { t with stack := rest })) :
    ResultsAgree (withPop s k) (withPop t l) := by
  obtain ⟨-, hsame⟩ := h
  obtain ⟨-, -, hstack, -⟩ := id hsame
  rw [withPop, withPop, hstack]
  cases s.stack with
  | nil => exact resultsAgree_faultState hsame _
  | cons v rest => exact hk v rest

theorem memSize_of_twins : t.memSize = s.memSize := by
  obtain ⟨-, -, -, -, -, -, -, -, -, -, hlast, -⟩ := h
  simp only [State.memSize_eq, hlast]

theorem withDataAddress_agree {addr : Word} {k l : Nat → Result} (hk : ∀ a, ResultsAgree (k a) (l a)) :
    ResultsAgree (withDataAddress addr s k) (withDataAddress addr t l) := by
  rw [withDataAddress, withDataAddress, memSize_of_twins h]
  split
  · exact resultsAgree_faultState h.2 _
  · exact hk _

theorem binary_agree (f : Word → Word → Nat) (a b c : Operand) :
    ResultsAgree (binary f a b c s) (binary f a b c t) :=
  withRead_agree h fun _ => withRead_agree h fun _ => writeResult_agree h a _ 3

/-- The channel takes the same character from both. -/
theorem delivers_twins {u : State} {ch : Nat} (hdel : Delivers s ch u) : ∃ w, Delivers t ch w ∧ Twins u w := by
  obtain ⟨hs, hregs, hpc, hstack, hmem, hrun, hinbuf, houts, hlines, hhold, hlast, hesc, hval⟩ := h
  have hescapes (n : Nat) : regsAfterEscapes t n = regsAfterEscapes s n := by
    simp only [regsAfterEscapes, hregs, hval]
  rcases hdel with ⟨n, rest, hbuf, rfl⟩ | ⟨m, n, line, lines, rest, hbuf, hnext, hline, rfl⟩
  · rw [← hesc, ← hinbuf] at hbuf
    exact ⟨_, .inl ⟨n, rest, hbuf, rfl⟩,
      hs, hescapes _, hpc, hstack, hmem, hrun, rfl, houts, hlines, hhold, hlast, hesc, hval⟩
  · rw [← hesc] at hbuf hline
    rw [← hinbuf] at hbuf
    exact ⟨_, .inr ⟨m, n, line, lines, rest, hbuf, hlines.trans hnext, hline, rfl⟩,
      hs, hescapes _, hpc, hstack, hmem, hrun, rfl, houts, rfl, hhold, hlast, hesc, hval⟩

/-- Neither core has input, and both wait. -/
theorem noInput_twins {m : Nat} (hno : NoInput s m) :
    NoInput t m ∧ Twins { s with inbuf := [], regs := regsAfterEscapes s m, hold := .input }
      { t with inbuf := [], regs := regsAfterEscapes t m, hold := .input } := by
  obtain ⟨hs, hregs, hpc, hstack, hmem, hrun, hinbuf, houts, hlines, -, hlast, hesc, hval⟩ := h
  obtain ⟨hbuf, hnone⟩ := hno
  rw [← hesc, ← hinbuf] at hbuf
  have hescapes : regsAfterEscapes t m = regsAfterEscapes s m := by simp only [regsAfterEscapes, hregs, hval]
  exact ⟨⟨hbuf, hlines.trans hnone⟩,
    hs, hescapes, hpc, hstack, hmem, hrun, rfl, houts, hlines, Iff.rfl, hlast, hesc, hval⟩

/-- Every handler answers alike on two cores that agree in everything but the layer's state. -/
theorem exec_agree (i : Instr) : ResultsAgree (exec i s) (exec i t) := by
  cases i with
  | halt => exact resultsAgree_next (twins_halt h)
  | noop => exact continueAfter_agree h 0
  | set a b | not a b => exact withRead_agree h fun _ => writeResult_agree h a _ 2
  | eq a b c | gt a b c | add a b c | mult a b c | and a b c | or a b c => exact binary_agree h _ a b c
  | mod a b c =>
    refine withRead_agree h fun _ => withRead_agree h fun _ => ?_
    split
    · exact resultsAgree_faultState h.2 _
    · exact writeResult_agree h a _ 3
  | push a => exact withRead_agree h fun v => continueAfter_agree (twins_push h _) 1
  | pop a =>
    rw [exec_pop, exec_pop]
    exact withPop_agree h fun v rest => writeResult_agree (twins_setStack h rest) a _ 1
  | jmp a => exact withRead_agree h fun t => jumpTo_agree h _
  | jt a b =>
    refine withRead_agree h fun v => ?_
    split
    · exact withRead_agree h fun t => jumpTo_agree h _
    · exact continueAfter_agree h 2
  | jf a b =>
    refine withRead_agree h fun v => ?_
    split
    · exact continueAfter_agree h 2
    · exact withRead_agree h fun t => jumpTo_agree h _
  | rmem a b =>
    refine withRead_agree h fun addr => withDataAddress_agree h fun k => ?_
    have hmem : t.readCell k = s.readCell k := by
      obtain ⟨-, -, -, -, hmem, -⟩ := h
      rw [State.readCell, State.readCell, hmem]
    rw [hmem]
    exact writeResult_agree h a _ 2
  | wmem a b =>
    exact withRead_agree h fun addr => withRead_agree h fun v => withDataAddress_agree h fun k =>
      continueAfter_agree (twins_writeCell h k _) 2
  | call a =>
    refine withRead_agree h fun c => ?_
    rw [pc_of_twins h]
    exact jumpTo_agree (twins_push h _) _
  | ret => exact withPop_agree h fun v rest => jumpTo_agree (twins_setStack h rest) v
  | out a => exact withRead_agree h fun c => continueAfter_agree (twins_emit h c) 1
  | inp a =>
    rcases delivers_or_noInput s with ⟨ch, u, hdel⟩ | ⟨m, hno⟩
    · obtain ⟨w, hdel', huw⟩ := delivers_twins h hdel
      rw [execInp_of_delivers hdel, execInp_of_delivers hdel']
      exact writeResult_agree huw a ch 1
    · obtain ⟨hno', hwait⟩ := noInput_twins h hno
      rw [exec_inp_of_noInput hno, exec_inp_of_noInput hno']
      exact resultsAgree_next hwait

end

/-! ### Stage 5 on the core with the layer -/

/-- The state in which stage 5 ends, however it ends. -/
def Stage5.state : Stage5 → State
  | .proceed s => s
  | .held s => s
  | .stopped s => s

/-- Of the commands only `rs` writes a register (60_exceptions.md R242). -/
theorem takeCommands_regs {cs : List Command} (hrs : ∀ r v, .rs r v ∉ cs) (s : State) :
    (takeCommands cs s).2.regs = s.regs := by
  induction cs generalizing s with
  | nil => rfl
  | cons c cs ih =>
    have hc : (runCommand c s).regs = s.regs := by
      cases c with
      | rs r v => exact absurd List.mem_cons_self (hrs r v)
      | w l =>
        simp only [runCommand]
        split <;> rfl
      | help | r | d | n _ | dis | malformed => rfl
    simp only [takeCommands]
    split
    · rw [ih (fun r v hmem => hrs r v (List.mem_cons_of_mem _ hmem)), hc]
    · exact hc

theorem operatorPoint_regs {s : State} (hrs : ∀ r v, .rs r v ∉ s.commands) :
    (operatorPoint s).state.regs = s.regs := by
  have htake := takeCommands_regs hrs s
  unfold operatorPoint
  split
  · rcases h : takeCommands s.commands s with ⟨_ | _, u⟩ <;> rw [h] at htake <;> exact htake
  · rfl

/-- Stage 5 of unmodified code writes no register as long as the operator does not. -/
theorem stage5_regs {t : State} {i : Instr} (hrs : ∀ r v, .rs r v ∉ t.commands) (hun : Unmodified t i) :
    (stage5 i t).state.regs = t.regs := by
  cases hd : t.params.debugEnable with
  | false =>
    rw [stage5_of_disabled hd]
    rfl
  | true =>
    cases hh : t.hold with
    | none =>
      obtain ⟨_, _, _, e⟩ := watchCheck_frame i (cached t i)
      have hregs : (watchCheck i (cached t i)).regs = t.regs := by
        rw [e]
        rfl
      have hcommands : (watchCheck i (cached t i)).commands = t.commands := by
        rw [e]
        rfl
      rw [stage5_of_unmodified hd hh hun, operatorPoint_regs (by rwa [hcommands]), hregs]
    | operator =>
      simp only [stage5, hd, if_true, hh]
      exact operatorPoint_regs hrs
    | input =>
      rw [stage5_of_input hh]
      rfl

/-- What stage 5 leaves agrees with the core without the layer, when the registers are as they were and both wait in
`in` or neither does. -/
theorem sameCore_of_layerFrame {s t w : State} (h : SameCore s t) (hw : LayerFrame t w) (hregs : w.regs = t.regs)
    {x : Hold} (hx : w.hold = .input ↔ x = .input) : SameCore { s with hold := x } w := by
  obtain ⟨hregs', hpc, hstack, hmem, hrun, hinbuf, houts, hlines, -, hlast, hesc, hval⟩ := h
  obtain ⟨wparams, wpc, wstack, wmem, wrun, winbuf, wouts, -, wlines, -⟩ := hw.core
  exact ⟨hregs.trans hregs', wpc.trans hpc, wstack.trans hstack, wmem.trans hmem, wrun.trans hrun, winbuf.trans hinbuf,
    wouts.trans houts, wlines.trans hlines, hx, by rw [wparams]; exact hlast, by rw [wparams]; exact hesc,
    by rw [wparams]; exact hval⟩

/-! ### One step -/

theorem fetch_of_sameCore {s t : State} (h : SameCore s t) : fetch t = fetch s := by
  obtain ⟨-, hpc, -, hmem, -, -, -, -, -, hlast, -⟩ := h
  have hcells (a n : Nat) : t.cellsFrom a n = s.cellsFrom a n := by
    simp only [State.cellsFrom, State.memSize_eq, State.readCell_eq, hmem, hlast]
  simp only [fetch, hpc, hcells]

/-- What the fetch finds wrong ends the step in that fault (40_execution_loop.md R80). -/
theorem step_of_fetch_error {s : State} {f : FaultInfo} (hr : s.run = .running) (hm : s.pc.toNat < s.memSize)
    (h : fetch s = .error f) : step s = .next (faultState f s) := by
  simp only [step, hr, offEnd, decide_eq_true_eq, if_neg (Nat.not_le.2 hm), h, raise_eq]

/-- One step of a core without the layer and one with it, whose stage 5 lets every instruction execute on the same
core. -/
theorem step_agree {s t : State} (hr : s.run = .running) (hoff : s.params.debugEnable = false) (h : SameCore s t)
    (hgo : ∀ i, AtInstr t i → ∃ w, stage5 i t = .proceed w ∧ SameCore { s with hold := .none } w) :
    ResultsAgree (step s) (step t) := by
  have hs := isFaulted_of_running hr
  have hsize := memSize_of_twins ⟨hs, h⟩
  obtain ⟨hregs, hpc, hstack, hmem, hrun, hrest⟩ := id h
  have hrt : t.run = .running := hrun.trans hr
  rcases Nat.lt_or_ge s.pc.toNat s.memSize with hm | hm
  · have hmt : t.pc.toNat < t.memSize := by rw [hpc, hsize]; exact hm
    have hfetch := fetch_of_sameCore h
    cases hf : fetch s with
    | error f =>
      rw [step_of_fetch_error hr hm hf, step_of_fetch_error hrt hmt (hfetch.trans hf)]
      exact resultsAgree_faultState h f
    | ok i =>
      obtain ⟨hproceed, -, -⟩ := step_of_atInstr (atInstr_of_fetch hr hm hf)
      have hat := atInstr_of_fetch hrt hmt (hfetch.trans hf)
      obtain ⟨hproceed', -, -⟩ := step_of_atInstr hat
      obtain ⟨w, hstage, hsame⟩ := hgo i hat
      rw [hproceed _ (stage5_of_disabled hoff i), hproceed' w hstage]
      have htwins : Twins { s with hold := .none } w := ⟨hs, hsame⟩
      exact exec_agree htwins i
  · rw [step_of_offEnd hr hm, step_of_offEnd hrt (by rw [hpc, hsize]; exact hm)]
    exact resultsAgree_next ⟨rfl, hregs, hpc, hstack, hmem, rfl, hrest⟩

/-- Stage 5 of unmodified code, with no `rs` to come, executes on the same core or holds with it. -/
theorem stage5_sameCore {s t : State} {i : Instr} (h : SameCore s t) (hrs : ∀ r v, .rs r v ∉ t.commands)
    (hun : Unmodified t i) :
    (∃ w, stage5 i t = .proceed w ∧ SameCore { s with hold := .none } w) ∨
    ∃ w, stage5 i t = .held w ∧ w.hold = .operator ∧ SameCore s w := by
  have hregs := stage5_regs hrs hun
  rcases stage5_cases i t with ⟨w, hstage, hhold, hw, -⟩ | ⟨w, hstage, hhold, hw, -⟩ | ⟨f, hf, -, -⟩
  · rw [hstage] at hregs
    exact .inl ⟨w, hstage, sameCore_of_layerFrame h hw hregs (by rw [hhold])⟩
  · have hnot : s.hold ≠ .input := fun hin => by
      obtain ⟨-, -, -, -, -, -, -, -, hiff, -⟩ := h
      rw [stage5_of_input (hiff.2 hin)] at hstage
      cases hstage
    rw [hstage] at hregs
    exact .inr ⟨w, hstage, hhold, sameCore_of_layerFrame h hw hregs (by simp [hhold, hnot])⟩
  · rw [selfModification_of_unmodified hun] at hf
    cases hf

/-- Settles O55: the instruction executes on both cores alike, unless the core with the layer holds with its core
unchanged. -/
theorem layerNeverAltersAStep : Obligations.LayerNeverAltersAStep := by
  unfold Obligations.LayerNeverAltersAStep
  intro s t hr hoff _ h hrs hun
  by_cases hheld : ∃ i w, AtInstr t i ∧ stage5 i t = .held w ∧ w.hold = .operator ∧ SameCore s w
  · obtain ⟨i, w, hat, hstage, hhold, hsame⟩ := hheld
    obtain ⟨s', hs'⟩ := step_answers hr
    obtain ⟨-, hstep, -⟩ := step_of_atInstr hat
    exact ⟨s', w, hs', hstep w hstage, .inl ⟨hhold, hsame⟩⟩
  · have hgo (i : Instr) (hat : AtInstr t i) : ∃ w, stage5 i t = .proceed w ∧ SameCore { s with hold := .none } w :=
      (stage5_sameCore h hrs (hun i hat)).resolve_right fun ⟨w, hw⟩ => hheld ⟨i, w, hat, hw⟩
    obtain ⟨s', t', hs', ht', hagree⟩ := step_agree hr hoff h hgo
    exact ⟨s', t', hs', ht', .inr hagree⟩

/-! ### Runs -/

/-- The layer is on, and nothing in it can hold or stop an iteration: no check, no single-stepping, nothing watched. -/
structure Quiet (t : State) : Prop where
  enabled : t.params.debugEnable = true
  unchecked : t.params.smcCheckEnable = false
  free : t.stepMode = false
  unwatched : t.watch = Vector.replicate 8 false

theorem Quiet.not_namesWatched {t : State} (h : Quiet t) (i : Instr) : ¬NamesWatched t i := by
  rintro ⟨r, -, hw⟩
  rw [h.unwatched, Fin.getElem_fin, Vector.getElem_replicate] at hw
  cases hw

/-- A quiet stage 5 lets every instruction execute, on the same core and still quiet. -/
theorem stage5_of_quiet {t : State} (h : Quiet t) (i : Instr) :
    ∃ w, stage5 i t = .proceed w ∧ w.hold = .none ∧ w.regs = t.regs ∧ LayerFrame t w ∧ Quiet w := by
  cases hh : t.hold with
  | none =>
    refine ⟨{ cached t i with stepSkip := t.stepSkip - 1, hold := .none }, ?_, rfl, rfl,
      ⟨_, _, _, _, _, _, _, _, rfl⟩, h.enabled, h.unchecked, h.free, h.unwatched⟩
    rw [stage5_of_unmodified h.enabled hh (.inl h.unchecked), watchCheck_of_not_watched (h.not_namesWatched i)]
    exact operatorPoint_of_no_prompt (s := cached t i) (.inl h.free)
  | operator =>
    refine ⟨{ t with stepSkip := t.stepSkip - 1, hold := .none }, ?_, rfl, rfl, ⟨_, _, _, _, _, _, _, _, rfl⟩,
      h.enabled, h.unchecked, h.free, h.unwatched⟩
    simp only [stage5, h.enabled, if_true, hh]
    exact operatorPoint_of_no_prompt (.inl h.free)
  | input =>
    exact ⟨_, stage5_of_input hh i, rfl, rfl, ⟨_, _, _, _, _, _, _, _, rfl⟩, h.enabled, h.unchecked, h.free,
      h.unwatched⟩

/-- A step that does not fault leaves a quiet layer quiet. -/
theorem quiet_of_step {t t' : State} (hr : t.run = .running) (h : Quiet t) (hstep : step t = .next t')
    (hfault : t'.isFaulted = false) : Quiet t' := by
  rcases step_ran hr hstep hfault with ⟨-, rfl⟩ | ⟨i, -, hstage⟩
  · exact ⟨h.enabled, h.unchecked, h.free, h.unwatched⟩
  · obtain ⟨w, hw, -, -, -, hquiet⟩ := stage5_of_quiet h i
    rcases hstage with ⟨u, hu, -, hran⟩ | ⟨hheld, -⟩
    · obtain rfl : u = w := by
        rw [hw] at hu
        cases hu
        rfl
      obtain ⟨hparams, -, hwatch, hmode, -⟩ := hran.layer
      exact ⟨hparams ▸ hquiet.enabled, hparams ▸ hquiet.unchecked, hmode.trans hquiet.free,
        hwatch.trans hquiet.unwatched⟩
    · rw [hw] at hheld
      cases hheld

/-- Cores that a simulation relates: the same core, without the layer and with a quiet one. -/
structure Simulates (s t : State) : Prop where
  twins : Twins s t
  disabled : s.params.debugEnable = false
  quiet : Quiet t

/-- One step of two related RUNNING cores answers related cores, or the same fault. -/
theorem step_simulates {s t : State} (hr : s.run = .running) (h : Simulates s t) :
    ∃ s' t', step s = .next s' ∧ step t = .next t' ∧
      (Simulates s' t' ∨ ∃ r, s'.run = .faulted r ∧ t'.run = .faulted r ∧ t'.outs = s'.outs ∧ t'.pc = s'.pc) := by
  obtain ⟨⟨-, hsame⟩, hoff, hquiet⟩ := h
  obtain ⟨-, -, -, -, hrun, -⟩ := id hsame
  obtain ⟨s', t', hs', ht', hagree⟩ := step_agree hr hoff hsame fun i _ => by
    obtain ⟨w, hstage, hhold, hregs, hw, -⟩ := stage5_of_quiet hquiet i
    exact ⟨w, hstage, sameCore_of_layerFrame hsame hw hregs (by rw [hhold])⟩
  refine ⟨s', t', hs', ht', hagree.imp_left fun htwins => ?_⟩
  obtain ⟨hfault, -, -, -, -, hrun', -⟩ := id htwins
  have hparams : s'.params = s.params := (outputOnlyGrows s s' hs').1
  have hfault' : t'.isFaulted = false := by
    rw [← hfault]
    simp only [State.isFaulted, hrun']
  exact ⟨htwins, hparams ▸ hoff, quiet_of_step (hrun.trans hr) hquiet ht' hfault'⟩

theorem run_succ_of_next {M : Host.Core} {s s' : M.State} (h : M.step s = .next s') (k : Nat) :
    M.run (k + 1) s = M.run k s' := by
  rw [Host.Core.run, h]

theorem run_succ_of_fault {M : Host.Core} {s : M.State} {f : M.Fault} (h : M.step s = .fault f) (k : Nat) :
    M.run (k + 1) s = .fault f := by
  rw [Host.Core.run, h]

theorem run_succ_of_step {s s' : State} (h : step s = .next s') (k : Nat) :
    Sys2Proof.core.run (k + 1) s = Sys2Proof.core.run k s' :=
  run_succ_of_next (M := Sys2Proof.core) h k

theorem run_succ_of_faulted {s : State} {r : FaultRecord} (h : s.run = .faulted r) (k : Nat) :
    Sys2Proof.core.run (k + 1) s = .fault (Fault.faulted r) :=
  run_succ_of_fault (M := Sys2Proof.core) (step_of_faulted h) k

/-- Two cores FAULTED with one record run alike. -/
theorem run_of_faulted {s t : State} {r : FaultRecord} (hs : s.run = .faulted r) (ht : t.run = .faulted r)
    (houts : t.outs = s.outs) (hpc : t.pc = s.pc) (k : Nat) :
    OutcomesAgree (Sys2Proof.core.run k s) (Sys2Proof.core.run k t) := by
  cases k with
  | zero => exact .inr ⟨r, hs, ht, houts, hpc⟩
  | succ k =>
    rw [run_succ_of_faulted hs, run_succ_of_faulted ht]
    rfl

/-- Related cores run alike, for any length. -/
theorem run_of_simulates (k : Nat) {s t : State} (h : Simulates s t) :
    OutcomesAgree (Sys2Proof.core.run k s) (Sys2Proof.core.run k t) := by
  induction k generalizing s t with
  | zero => exact .inl h.twins
  | succ k ih =>
    obtain ⟨hfault, -, -, -, -, hrun, -⟩ := h.twins
    cases hr : s.run with
    | running =>
      obtain ⟨s', t', hs', ht', hnext | ⟨r, hsr, htr, houts, hpc⟩⟩ := step_simulates hr h
      · rw [run_succ_of_step hs', run_succ_of_step ht']
        exact ih hnext
      · rw [run_succ_of_step hs', run_succ_of_step ht']
        exact run_of_faulted hsr htr houts hpc k
    | halted reason =>
      rw [run_succ_of_step (step_of_halted hr), run_succ_of_step (step_of_halted (hrun.trans hr))]
      exact ih h
    | faulted r =>
      rw [(isFaulted_iff s).2 ⟨r, hr⟩] at hfault
      cases hfault

/-- Settles O56: the cores are related at the start, and every step keeps them so or faults on both alike. -/
theorem layerNeverAltersARun : Obligations.LayerNeverAltersARun := by
  unfold Obligations.LayerNeverAltersARun
  intro k s t hoff hon hcheck hmode hwatch hsame hfault
  exact run_of_simulates k ⟨⟨hfault, hsame⟩, hoff, hon, hcheck, hmode, hwatch⟩

end Sys2Proof.Machine
end
